-- ==== Sys2Proof/Word.lean ====
section
/-! DEFINITION. The word types of the packet core: bytes, 32-bit words, the 24-bit integrity value and the 16-bit command word. -/

namespace Sys2Proof

/-- One byte of the frame buffer or of a stream (20_memory.md R50). -/
abbrev Byte := BitVec 8

/-- A 32-bit value: `RES`, `WDATA` and the four wide packet fields (10_state.md R21, R27; 30_encoding.md R91). -/
abbrev Word := BitVec 32

/-- The 24-bit integrity value (10_state.md R21, 40_crc.md R110). -/
abbrev Crc := BitVec 24

/-- A 16-bit command word `CW` (30_encoding.md R90). -/
abbrev CmdWord := BitVec 16

end Sys2Proof
end

