-- ==== Sys2Proof/Config.lean ====
section
/-! DEFINITION. The constants the core is built with (00_scope.md R6, R7; 10_state.md R28), the parameters the spec leaves open
(R8), and the one free value (the frame buffer's bytes after reset, 93_implementation_defined.md U6). -/

namespace Sys2Proof

/-- `RX_TIMEOUT_MODE` (20_memory.md R56): whether the transport may end a blocked read. -/
inductive RxTimeoutMode where
  /-- `RxRead` never returns `timeout`. -/
  | block
  /-- The transport may return `timeout` from any blocked `RxRead`. -/
  | timeout
  deriving DecidableEq, Repr, Inhabited

namespace Config

/-- `SOF`, the start marker (30_encoding.md R84). -/
def sof : Byte := 0x7E

/-- `PACKET_SIZE` (00_scope.md R6). -/
def packetSize : Nat := 22

/-- `CONTENT_LEN`: how many bytes the CRC covers (00_scope.md R7, 40_crc.md R111). -/
def contentLen : Nat := 19

/-- `PIN_COUNT` (00_scope.md R6); the core checks no pin against it (10_state.md R23). -/
def pinCount : Nat := 53

/-- `CRC_POLY` (00_scope.md R7), the x^24 term implied. -/
def crcPoly : Crc := 0x864CFB

/-- `CRC_INIT` (00_scope.md R7). -/
def crcInit : Crc := 0xB704CE

/-- `CRC_XOROUT` (00_scope.md R7). -/
def crcXorOut : Crc := 0x000000

/-- FREE VALUE (log 1): what byte `a` of `BUF` holds after the `r`-th reset until something writes it.
10_state.md R34 says "unspecified: any 22 byte values"; 93_implementation_defined.md U6 says to draw once at reset. -/
opaque bufAtReset (r a : Nat) : Byte

/-- PARAMETER (00_scope.md R8, log 6): the mode of this machine's transport. -/
opaque rxTimeoutMode : RxTimeoutMode

/-- PARAMETER `BAUD_PRIMARY` (00_scope.md R8, log 18): "No rule of the core reads" it. -/
opaque baudPrimary : Nat

/-- PARAMETER `BAUD_DIAG` (00_scope.md R8, log 18). -/
opaque baudDiag : Nat

/-- PARAMETER `READ_TIMEOUT_NOMINAL` (00_scope.md R8, log 18). -/
opaque readTimeoutNominal : Nat

end Config

end Sys2Proof
end

