-- ==== Sys2Proof/Syntax.lean ====
section
/-! DEFINITION. The instructions: one constructor per row of spec/opcode_table.json, and the two encoded forms the table has. -/

namespace Sys2Proof

/-- The field selects `f` of `GETF` and `SETF` (30_encoding.md R92), in the order 0 to 6. Select 7 is reserved, so it is no field. -/
inductive PktField where
  | id
  | clientId
  | opCode
  | pin
  | pinMode
  | data
  | crc
  deriving DecidableEq, Repr

/-- The rows of spec/opcode_table.json: the eleven commands of 30_encoding.md R90 and the five wire values of the packet
field `opCode` of R85 (no commands: what the core does with one is R86). -/
inductive Instr where
  /-- `CLR` (41_marshal.md R131). -/
  | clr
  /-- `SER` (41_marshal.md R133). -/
  | ser
  /-- `DES` (41_marshal.md R135). -/
  | des
  /-- `CRC` (40_crc.md R112). -/
  | crc
  /-- `VAL` (40_crc.md R113). -/
  | val
  /-- `RECV` (42_framesync.md R161). -/
  | recv
  /-- `SEND` (43_sender.md R181). -/
  | send
  /-- `GETF f` (41_marshal.md R140). -/
  | getf (f : PktField)
  /-- `SETF f, v` (41_marshal.md R141); `v` is `WDATA`. -/
  | setf (f : PktField) (v : Word)
  /-- `RDB i` (41_marshal.md R142); `i` is the 5-bit offset field of the command word (30_encoding.md R93). -/
  | rdb (i : BitVec 5)
  /-- `WRB i, v` (41_marshal.md R143); `v` is `WDATA`. -/
  | wrb (i : BitVec 5) (v : Word)
  /-- Wire value 1000, "get temperature reading" (30_encoding.md R85). -/
  | opCode1000
  /-- Wire value 1001, "configure a pin as input" (R85). -/
  | opCode1001
  /-- Wire value 1002, "read a digital pin" (R85). -/
  | opCode1002
  /-- Wire value 1003, "configure an analog pin as input" (R85). -/
  | opCode1003
  /-- Wire value 1004, "read an analog pin" (R85). -/
  | opCode1004
  deriving DecidableEq, Repr

/-- What the host presents: a command word and an operand (30_encoding.md R89). -/
structure Command where
  cw : CmdWord
  wdata : Word
  deriving DecidableEq, Repr

/-- The two encoded forms of the opcode table: format CMD16 with its operand (R89), and the 32-bit wire value of the packet
field `opCode` (format WIRE_OPCODE32, R85). -/
inductive Encoded where
  | command (c : Command)
  | wireOpCode (v : Word)
  deriving DecidableEq, Repr

end Sys2Proof
end

