-- ==== Sys2Proof/WellFormed.lean ====
section
/-! DEFINITION. Which instructions have an encoding: the one constraint left to check is the buffer offset (30_encoding.md R93). -/

namespace Sys2Proof

/-- A legal buffer offset: 0 to 21; "22 to 31 are reserved and illegal" (30_encoding.md R93). -/
def offsetLegal (i : BitVec 5) : Bool := decide (i.toNat < Config.packetSize)

/-- An instruction is well formed when its operands are ones the encoding admits (30_encoding.md R90, R94). -/
def Instr.wf (i : Instr) : Bool :=
  match i with
  | .clr => true
  | .ser => true
  | .des => true
  | .crc => true
  | .val => true
  | .recv => true
  | .send => true
  | .getf _ => true
  | .setf _ _ => true
  | .rdb i => offsetLegal i
  | .wrb i _ => offsetLegal i
  | .opCode1000 => true
  | .opCode1001 => true
  | .opCode1002 => true
  | .opCode1003 => true
  | .opCode1004 => true

end Sys2Proof
end

