-- ==== Sys2Proof/Decode.lean ====
section
/-! DEFINITION. The decoder (total, rejecting by name) and the encoder of the command words (30_encoding.md R90 to R95) and of the
wire values of `opCode` (R85). -/

namespace Sys2Proof

/-- Why a word is no instruction. Every command word rejected here is illegal in the sense of 30_encoding.md R94 and ends with
`RC = ILLEGAL` (60_exceptions.md R192). -/
inductive DecodeError where
  /-- `op` is 0x00 or 0x0C to 0xFF. -/
  | reservedOp (op : Byte)
  /-- `op` in 0x01 to 0x07 with `arg` not 0x00. -/
  | nonZeroArg (op arg : Byte)
  /-- `op` 0x08 or 0x09 with `arg` above 0x06. -/
  | reservedField (arg : Byte)
  /-- `op` 0x0A or 0x0B with `arg` above 0x15. -/
  | reservedOffset (arg : Byte)
  /-- A value of the packet field `opCode` that is none of the five of R85. -/
  | otherOpCode (v : Word)
  deriving DecidableEq, Repr

/-- `CW[15:8]` (30_encoding.md R90). -/
def opOf (cw : CmdWord) : Byte := cw.extractLsb' 8 8

/-- `CW[7:0]` (30_encoding.md R90). -/
def argOf (cw : CmdWord) : Byte := cw.extractLsb' 0 8

/-- The field of a select number (30_encoding.md R92). -/
def fieldOfSelect (n : Nat) : Option PktField :=
  match n with
  | 0 => some .id
  | 1 => some .clientId
  | 2 => some .opCode
  | 3 => some .pin
  | 4 => some .pinMode
  | 5 => some .data
  | 6 => some .crc
  | _ => none

/-- The select number of a field (30_encoding.md R92). -/
def selectOfField (f : PktField) : Byte :=
  match f with
  | .id => 0
  | .clientId => 1
  | .opCode => 2
  | .pin => 3
  | .pinMode => 4
  | .data => 5
  | .crc => 6

/-- A command that takes no argument: `arg` "must be 0x00" (30_encoding.md R90). -/
def decodeNoArg (op arg : Byte) (i : Instr) : Except DecodeError Instr :=
  if arg = 0 then .ok i else .error (.nonZeroArg op arg)

/-- A command with a field select: `arg[7:3]` = 0 and `f` in 0 to 6 (30_encoding.md R90, R92). -/
def decodeField (arg : Byte) (k : PktField → Instr) : Except DecodeError Instr :=
  match fieldOfSelect arg.toNat with
  | some f => .ok (k f)
  | none => .error (.reservedField arg)

/-- A command with a buffer offset: `arg[7:5]` = 0 and `i` in 0 to 21 (30_encoding.md R90, R93). -/
def decodeOffset (arg : Byte) (k : BitVec 5 → Instr) : Except DecodeError Instr :=
  if arg.toNat < Config.packetSize then .ok (k (arg.setWidth 5)) else .error (.reservedOffset arg)

/-- The table of 30_encoding.md R90, by operation code and argument. -/
def decodeOpArg (op arg : Byte) (wdata : Word) : Except DecodeError Instr :=
  match op.toNat with
  | 1 => decodeNoArg op arg .clr
  | 2 => decodeNoArg op arg .ser
  | 3 => decodeNoArg op arg .des
  | 4 => decodeNoArg op arg .crc
  | 5 => decodeNoArg op arg .val
  | 6 => decodeNoArg op arg .recv
  | 7 => decodeNoArg op arg .send
  | 8 => decodeField arg .getf
  | 9 => decodeField arg (fun f => .setf f wdata)
  | 10 => decodeOffset arg .rdb
  | 11 => decodeOffset arg (fun i => .wrb i wdata)
  | _ => .error (.reservedOp op)

/-- The command decoder (30_encoding.md R90, R94). -/
def decodeCommand (c : Command) : Except DecodeError Instr := decodeOpArg (opOf c.cw) (argOf c.cw) c.wdata

/-- The five wire values of the packet field `opCode` (30_encoding.md R85). -/
def decodeWireOpCode (v : Word) : Except DecodeError Instr :=
  if v = 1000 then .ok .opCode1000
  else if v = 1001 then .ok .opCode1001
  else if v = 1002 then .ok .opCode1002
  else if v = 1003 then .ok .opCode1003
  else if v = 1004 then .ok .opCode1004
  else .error (.otherOpCode v)

/-- The decoder of both encoded forms. -/
def decode (e : Encoded) : Except DecodeError Instr :=
  match e with
  | .command c => decodeCommand c
  | .wireOpCode v => decodeWireOpCode v

/-- A command word from its two bytes, `op` in the upper one (30_encoding.md R90). -/
def mkWord (op arg : Byte) : CmdWord := op ++ arg

/-- The encoder: the words of 30_encoding.md R90 with "`WDATA` = 0 when the command has no value operand" (R97). -/
def encode (i : Instr) : Encoded :=
  match i with
  | .clr => .command ⟨mkWord 0x01 0, 0⟩
  | .ser => .command ⟨mkWord 0x02 0, 0⟩
  | .des => .command ⟨mkWord 0x03 0, 0⟩
  | .crc => .command ⟨mkWord 0x04 0, 0⟩
  | .val => .command ⟨mkWord 0x05 0, 0⟩
  | .recv => .command ⟨mkWord 0x06 0, 0⟩
  | .send => .command ⟨mkWord 0x07 0, 0⟩
  | .getf f => .command ⟨mkWord 0x08 (selectOfField f), 0⟩
  | .setf f v => .command ⟨mkWord 0x09 (selectOfField f), v⟩
  | .rdb i => .command ⟨mkWord 0x0A (i.setWidth 8), 0⟩
  | .wrb i v => .command ⟨mkWord 0x0B (i.setWidth 8), v⟩
  | .opCode1000 => .wireOpCode 1000
  | .opCode1001 => .wireOpCode 1001
  | .opCode1002 => .wireOpCode 1002
  | .opCode1003 => .wireOpCode 1003
  | .opCode1004 => .wireOpCode 1004

/-- The encoded form of `nbits` table bits `w` (log 13, log 16): a row of 32 bits is a wire value of `opCode` (format
WIRE_OPCODE32); every other row is a command, `CW` in bits 15..0 and `WDATA`, to which the table gives no bits, in bits 47..16. -/
def encodedOfTableWord (nbits w : Nat) : Encoded :=
  if nbits = 32 then .wireOpCode (BitVec.ofNat 32 w)
  else .command ⟨BitVec.ofNat 16 w, BitVec.ofNat 32 (w >>> 16)⟩

/-- The instruction the decoder reads from an opcode-table word. -/
def decodeTableWord (nbits w : Nat) : Option Instr :=
  match decode (encodedOfTableWord nbits w) with
  | .ok i => some i
  | .error _ => none

end Sys2Proof
end

