-- ==== Sys2Proof/Machine/State.lean ====
section
/-! DEFINITION. The state: everything 10_state.md gives the core, what the agents around it hold (the program, the transport's
received bytes, the emitted events), the two reasons a step can stop, and the state after reset. -/

namespace Sys2Proof.Machine

/-- The result codes (60_exceptions.md R190). "Codes 5, 6 and 7 are never written": the type has five values (U11). -/
inductive ResultCode where
  | ok
  | miss
  | crcFail
  | timeout
  | illegal
  deriving DecidableEq, Repr

/-- The codes of `Diag` events: "The only code is `DIAG_CRC_FAIL`" (20_memory.md R59). -/
inductive DiagCode where
  | crcFail
  deriving DecidableEq, Repr

/-- The observable output events (20_memory.md R57 to R60). -/
inductive OutEvent where
  /-- `TxWrite(bytes)`: one block handed to the transport (R57). -/
  | txWrite (bytes : List Byte)
  /-- `TxFlush()` (R58). -/
  | txFlush
  /-- `Diag(code)` (R59). -/
  | diag (code : DiagCode)
  deriving DecidableEq, Repr

/-- Whose move the next step is (log 5): the core, or one of the agents of 00_scope.md R9 acting on its own. -/
inductive Turn where
  /-- The core: go on with the `RECV` in progress, or take the command the host presents. -/
  | core
  /-- The node's main loop looks at `PKT.opCode` to dispatch on it: nothing in the core changes (30_encoding.md R86, log 12). -/
  | dispatch
  /-- The transport receives a byte (20_memory.md R55). -/
  | rxByte (b : Byte)
  /-- The transport ends a blocked read with `timeout` (20_memory.md R55 (c), R56). -/
  | rxTimeout
  /-- Reset (70_reset_and_hazards.md R220). -/
  | reset
  /-- Reset in mid-command, after `n` of the command's transport actions (R220, R221, log 15). -/
  | resetDuring (n : Nat)
  deriving DecidableEq, Repr

/-- The packet register `PKT`: the seven field registers `x[0]` to `x[6]` (10_state.md R21). -/
@[ext]
structure Packet where
  id : Word
  clientId : Word
  opCode : Word
  pin : Byte
  pinMode : Byte
  data : Word
  crc : Crc
  deriving DecidableEq, Repr

/-- The cleared state of `PKT`: all seven field registers zero (10_state.md R24). -/
def Packet.cleared : Packet := ⟨0, 0, 0, 0, 0, 0, 0⟩

/-- `BUF` as a list of (offset, byte) pairs, offsets rising: the bytes written since reset (log 1). -/
abbrev Memory := List Host.Cell

/-- The machine's state. The first group is the core's (10_state.md R20, R29), the second what the agents around it hold
(R30, R31; 20_memory.md R55, R60), the third the model's own. -/
@[ext]
structure State where
  /-- `PKT` (10_state.md R21). -/
  pkt : Packet
  /-- `BUF` (10_state.md R25). -/
  buf : Memory
  /-- `RC` (10_state.md R26). -/
  rc : ResultCode
  /-- `RES` (10_state.md R27). -/
  res : Word
  /-- `BUSY` (10_state.md R29). -/
  busy : Bool
  /-- `RXCNT`, 0 to 22 (10_state.md R29). -/
  rxcnt : Nat
  /-- The program: the commands the host presents, in order (10_state.md R30). -/
  program : List Command
  /-- The index of the next command in `program` (10_state.md R30). -/
  pc : Nat
  /-- The bytes the transport has received so far, oldest first (20_memory.md R55). -/
  rx : List Byte
  /-- The transport's read position in `rx` (20_memory.md R55). -/
  rxpos : Nat
  /-- `RX_TIMEOUT_MODE` (20_memory.md R56). -/
  rxMode : RxTimeoutMode
  /-- The events emitted so far, oldest first (20_memory.md R60). -/
  out : List OutEvent
  /-- MODEL'S OWN (log 2): how many resets have struck; it numbers the draws of the free bytes of `BUF`. -/
  resetCount : Nat
  /-- MODEL'S OWN (log 5): whose move each coming step is; when the list is empty, the core's. -/
  schedule : List Turn
  deriving DecidableEq, Repr

/-- Reasons to stop with a fault: NONE. "there is no fatal error path within the protocol layer itself"
(60_exceptions.md, opening quotation); every abnormal event ends its command with a result code (R190). Nobody raises one; safe. -/
inductive Fault where
  deriving DecidableEq, Repr

/-- Reasons to refuse. -/
inductive Refusal where
  /-- An instruction not modelled yet. No arm of `exec` answers it now. Safe: nothing follows about the refused step. -/
  | notModelled (mnemonic : String)
  /-- `exec` of one of the eleven commands at a state with `BUSY` = 1: "a model has no step for it" (70_reset_and_hazards.md R228,
  93_implementation_defined.md U12). Raised by `Machine.command`; `step` never presents a command then. Safe (log 10). -/
  | commandWhileBusy
  deriving DecidableEq, Repr

/-- The state right after power-on reset: the core as 10_state.md R34 says; the agents around it hold nothing yet
(logs 2 to 8). -/
def State.reset : State where
  pkt := Packet.cleared
  buf := []
  rc := .ok
  res := 0
  busy := false
  rxcnt := 0
  program := []
  pc := 0
  rx := []
  rxpos := 0
  rxMode := Config.rxTimeoutMode
  out := []
  resetCount := 0
  schedule := []

end Sys2Proof.Machine
end

