-- ==== Sys2Proof/Machine/Ops.lean ====
section
/-! DEFINITION. The named operations on memory, registers, the transport and the output; ending a command (the only "exception
entry" this core has, 60_exceptions.md R195); reset. -/

namespace Sys2Proof.Machine

/-! ### The frame buffer -/

/-- The byte listed at offset `a`; none when nothing has written it since reset. -/
def Memory.read? (m : Memory) (a : Nat) : Option Byte :=
  match m with
  | [] => none
  | (k, v) :: rest => if k = a then some v else Memory.read? rest a

/-- List byte `v` at offset `a`, keeping the offsets rising. -/
def Memory.write (m : Memory) (a : Nat) (v : Byte) : Memory :=
  match m with
  | [] => [(a, v)]
  | (k, w) :: rest =>
    if a < k then (a, v) :: (k, w) :: rest
    else if a = k then (a, v) :: rest
    else (k, w) :: Memory.write rest a v

/-- Offsets rise strictly from `lo` on and stay below `PACKET_SIZE` (20_memory.md R50, R52). -/
def Memory.risingFrom (lo : Nat) (m : Memory) : Bool :=
  match m with
  | [] => true
  | (k, _) :: rest => decide (lo ≤ k) && (decide (k < Config.packetSize) && Memory.risingFrom (k + 1) rest)

/-- The canonical form of `BUF` (log 1): offsets strictly rising, each below 22. An unlisted offset holds no value of its own, so no
entry repeats what an unlisted offset holds. -/
def Memory.wf (m : Memory) : Bool := Memory.risingFrom 0 m

/-- What a byte of `BUF` that nothing has written since reset reads as: a free value, one per reset and offset
(10_state.md R34, 93_implementation_defined.md U6, log 1). -/
def unlistedByte (s : State) (a : Nat) : Byte := Config.bufAtReset s.resetCount a

/-- `BUF[a]` (10_state.md R25). -/
def bufByte (s : State) (a : Nat) : Byte :=
  match Memory.read? s.buf a with
  | some v => v
  | none => unlistedByte s a

/-- `BUF[0..21]`, lowest offset first (00_scope.md R11). -/
def bufFrame (s : State) : List Byte := (List.range Config.packetSize).map (bufByte s)

/-- `BUF[a] <- v`. -/
def writeBuf (a : Nat) (v : Byte) (s : State) : State := { s with buf := Memory.write s.buf a v }

/-- Bytes at ascending offsets from `a` on, as entries. -/
def Memory.cellsFrom (a : Nat) (bytes : List Byte) : Memory :=
  match bytes with
  | [] => []
  | b :: rest => (a, b) :: Memory.cellsFrom (a + 1) rest

/-- List a run of bytes from offset `a` on in place of whatever was listed there. -/
def Memory.writeAll (m : Memory) (a : Nat) (bytes : List Byte) : Memory :=
  m.filter (fun c => decide (c.1 < a)) ++ (Memory.cellsFrom a bytes ++ m.filter (fun c => decide (a + bytes.length ≤ c.1)))

/-- `BUF[0..] <- bytes`, offset 0 first. -/
def writeFrame (bytes : List Byte) (s : State) : State := { s with buf := Memory.writeAll s.buf 0 bytes }

/-! ### Registers -/

/-- `PKT <- p`. -/
def setPkt (p : Packet) (s : State) : State := { s with pkt := p }

/-- `RES <- v`. -/
def setRes (v : Word) (s : State) : State := { s with res := v }

/-- `RXCNT <- n`. -/
def setRxcnt (n : Nat) (s : State) : State := { s with rxcnt := n }

/-- `BUSY <- 1; RXCNT <- 0`, the start of a `RECV` (42_framesync.md R161 line 1). -/
def setBusy (s : State) : State := { s with busy := true, rxcnt := 0 }

/-! ### Output -/

/-- Emit one event, after all earlier ones (20_memory.md R60). -/
def emit (e : OutEvent) (s : State) : State := { s with out := s.out ++ [e] }

/-! ### The end of a command -/

/-- A command ends: `BUSY <- 0; RC <- code` and, in the program model, `pc <- pc + 1` "with any `RC`" (10_state.md R26, R30).
With a code other than `OK` this is the spec's `raise`, "not a trap: no control transfer exists" (00_scope.md R11). -/
def endCommand (code : ResultCode) (s : State) : State := { s with busy := false, rc := code, pc := s.pc + 1 }

/-- `raise code` (00_scope.md R11): "`RC <- <Code>` and the command ends at once with no further state change". -/
def raise (code : ResultCode) (s : State) : State := endCommand code s

/-- An illegal command word: "`RC <- ILLEGAL`, and nothing else" (60_exceptions.md R192). -/
def illegalCommand (s : State) : State := raise .illegal s

/-- The command interface: a command is accepted only when `BUSY` = 0 (30_encoding.md R89; log 10). -/
def command (s : State) (run : State → State) : Host.Outcome State Fault Refusal :=
  if s.busy then .refused .commandWhileBusy else .next (run s)

/-! ### The transport -/

/-- The byte `RxRead` would return now; none when the transport holds no unread byte (20_memory.md R55). -/
def rxNext (s : State) : Option Byte := s.rx[s.rxpos]?

/-- "the transport does `rxpos <- rxpos + 1`" (20_memory.md R55 (a)). -/
def rxConsume (s : State) : State := { s with rxpos := s.rxpos + 1 }

/-- The transport receives a byte; "the byte waits in the transport until a `RECV` calls `RxRead`" (60_exceptions.md R196). -/
def deliver (b : Byte) (s : State) : State := { s with rx := s.rx ++ [b] }

/-- A `RECV` is blocked in `RxRead`: in progress, and no byte to read (42_framesync.md R165). -/
def blocked (s : State) : Bool := s.busy && (rxNext s).isNone

/-! ### Reset -/

/-- Reset puts every piece of the core's state at the value of 10_state.md R34 and "does not reach the external agents"
(70_reset_and_hazards.md R220, R221). `BUF` is unspecified again: nothing listed, and fresh free bytes (log 2). -/
def resetCore (s : State) : State :=
  { s with pkt := Packet.cleared, buf := [], rc := .ok, res := 0, busy := false, rxcnt := 0, resetCount := s.resetCount + 1 }

end Sys2Proof.Machine
end

