-- ==== Sys2Proof/Machine/Operands.lean ====
section
/-! DEFINITION. The operand forms: big-endian assembly and disassembly of multi-byte fields (20_memory.md R61, 30_encoding.md R83),
and the field registers read and written by select (30_encoding.md R92, 41_marshal.md R140, R141). -/

namespace Sys2Proof.Machine

/-- `B[a] || B[a+1] || B[a+2] || B[a+3]`, the most significant byte first (30_encoding.md R83). -/
def join4 (a b c d : Byte) : Word := a ++ b ++ c ++ d

/-- `B[19] || B[20] || B[21]` (30_encoding.md R83). -/
def join3 (a b c : Byte) : Crc := a ++ b ++ c

/-- The four bytes of a field, `v[31:24]` first (30_encoding.md R83). -/
def bytes4 (v : Word) : List Byte :=
  [v.extractLsb' 24 8, v.extractLsb' 16 8, v.extractLsb' 8 8, v.extractLsb' 0 8]

/-- The three bytes of the integrity field, `crc[23:16]` first (30_encoding.md R83). -/
def bytes3 (v : Crc) : List Byte :=
  [v.extractLsb' 16 8, v.extractLsb' 8 8, v.extractLsb' 0 8]

/-- Byte `i` of a sequence. Every sequence the machine takes apart has 22 bytes, so the 0 past the end is never used. -/
def byteAt (bytes : List Byte) (i : Nat) : Byte := bytes.getD i 0

/-- `zext_32` of a byte (00_scope.md R11). -/
def zextByte (b : Byte) : Word := b.setWidth 32

/-- `zext_32` of a 24-bit value (00_scope.md R11). -/
def zextCrc (c : Crc) : Word := c.setWidth 32

/-- `trunc_8` (00_scope.md R11). -/
def truncByte (v : Word) : Byte := v.setWidth 8

/-- `trunc_24` (00_scope.md R11). -/
def truncCrc (v : Word) : Crc := v.setWidth 24

/-- `zext_32(x[f])` (41_marshal.md R140). -/
def fieldRead (p : Packet) (f : PktField) : Word :=
  match f with
  | .id => p.id
  | .clientId => p.clientId
  | .opCode => p.opCode
  | .pin => zextByte p.pin
  | .pinMode => zextByte p.pinMode
  | .data => p.data
  | .crc => zextCrc p.crc

/-- `x[f] <- trunc_w(v)`, `w` the width of the field (41_marshal.md R141). -/
def fieldWrite (p : Packet) (f : PktField) (v : Word) : Packet :=
  match f with
  | .id => { p with id := v }
  | .clientId => { p with clientId := v }
  | .opCode => { p with opCode := v }
  | .pin => { p with pin := truncByte v }
  | .pinMode => { p with pinMode := truncByte v }
  | .data => { p with data := v }
  | .crc => { p with crc := truncCrc v }

/-- A command with a buffer offset: `run` at an offset 0 to 21; an offset field of 22 to 31 is an illegal word and ends with
`RC = ILLEGAL` "without touching `BUF`" (20_memory.md R52, log 22). -/
def withOffset (i : BitVec 5) (run : Nat → State → State) (s : State) : State :=
  if offsetLegal i then run i.toNat s else illegalCommand s

end Sys2Proof.Machine
end

