-- ==== Sys2Proof/Machine/Flags.lean ====
section
/-! DEFINITION. The core's only condition code, `RC`, as the host reads it (10_state.md R26, 60_exceptions.md R190), and the truth
value a validation leaves in `RES` (40_crc.md R113). There are no carry, zero, sign or overflow flags (R26). -/

namespace Sys2Proof.Machine

/-- The 3-bit value of a result code (60_exceptions.md R190). -/
def rcBits (c : ResultCode) : BitVec 3 :=
  match c with
  | .ok => 0
  | .miss => 1
  | .crcFail => 2
  | .timeout => 3
  | .illegal => 4

/-- `zext_32(ok)`: "1 if equal, 0 if not" (40_crc.md R113). -/
def truthWord (ok : Bool) : Word := if ok then 1 else 0

/-- A command that always ends with `RC = OK` (60_exceptions.md R193 (3)). -/
def endOk (s : State) : State := endCommand .ok s

end Sys2Proof.Machine
end

