-- ==== Sys2Proof/Machine/Frame.lean ====
section
/-! DEFINITION. The three pure functions of the packet model: `CRC24` (40_crc.md R110), `Serialize` (41_marshal.md R132) and
`Deserialize` (R134), and what an acceptable frame is (30_encoding.md R87). -/

namespace Sys2Proof.Machine

/-- One of the eight shift steps of `CRC24`: shift left, and when bit 23 was 1 add the polynomial (40_crc.md R110). -/
def crcShift (c : Crc) : Crc := if c.msb then (c <<< 1) ^^^ Config.crcPoly else c <<< 1

/-- `n` shift steps. -/
def crcShifts (n : Nat) (c : Crc) : Crc :=
  match n with
  | 0 => c
  | n + 1 => crcShifts n (crcShift c)

/-- One byte of `CRC24`: the byte into bits 23:16, then eight shift steps (40_crc.md R110). -/
def crcByte (c : Crc) (b : Byte) : Crc := crcShifts 8 (c ^^^ (b.setWidth 24 <<< 16))

/-- The register after `bytes`, started at `c`. -/
def crcFrom (c : Crc) (bytes : List Byte) : Crc :=
  match bytes with
  | [] => c
  | b :: rest => crcFrom (crcByte c b) rest

/-- `CRC24(bytes)` (40_crc.md R110). -/
def crc24 (bytes : List Byte) : Crc := crcFrom Config.crcInit bytes ^^^ Config.crcXorOut

/-- The content bytes of the frame of `p`, offsets 0 to 18: the marker, then the six fields (41_marshal.md R132, 40_crc.md R111). -/
def content (p : Packet) : List Byte :=
  Config.sof :: (bytes4 p.id ++ (bytes4 p.clientId ++ (bytes4 p.opCode ++ ([p.pin, p.pinMode] ++ bytes4 p.data))))

/-- `Serialize(PKT)`: the content bytes and their `CRC24`; it "does not read `x[6]`" (41_marshal.md R132). -/
def serialize (p : Packet) : List Byte := content p ++ bytes3 (crc24 (content p))

/-- `Deserialize(B)`: all seven fields; it "does not read `B[0]` and does not check anything" (41_marshal.md R134). -/
def deserialize (b : List Byte) : Packet where
  id := join4 (byteAt b 1) (byteAt b 2) (byteAt b 3) (byteAt b 4)
  clientId := join4 (byteAt b 5) (byteAt b 6) (byteAt b 7) (byteAt b 8)
  opCode := join4 (byteAt b 9) (byteAt b 10) (byteAt b 11) (byteAt b 12)
  pin := byteAt b 13
  pinMode := byteAt b 14
  data := join4 (byteAt b 15) (byteAt b 16) (byteAt b 17) (byteAt b 18)
  crc := join3 (byteAt b 19) (byteAt b 20) (byteAt b 21)

/-- The content bytes of a frame image, offsets 0 to 18 (40_crc.md R111). -/
def contentOf (b : List Byte) : List Byte := b.take Config.contentLen

/-- An acceptable frame: 22 bytes, byte 0 is `SOF`, and bytes 19 to 21 equal `CRC24` of bytes 0 to 18 (30_encoding.md R87). -/
def acceptable (b : List Byte) : Bool :=
  decide (b.length = Config.packetSize) && (decide (byteAt b 0 = Config.sof) && decide (b.drop Config.contentLen = bytes3 (crc24 (contentOf b))))

end Sys2Proof.Machine
end

