-- ==== Sys2Proof/Machine/Crc.lean ====
section
/-! DEFINITION. The CRC family (40_crc.md): `CRC` and `VAL`. -/

namespace Sys2Proof.Machine

/-- `CRC` (40_crc.md R112): `RES <- zext_32(CRC24(BUF[0..18]))`. -/
def execCrc (s : State) : Host.Outcome State Fault Refusal :=
  command s fun s => endOk (setRes (zextCrc (crc24 (contentOf (bufFrame s)))) s)

/-- The packet's embedded CRC equals `CRC24` of the content recomputed from its fields (40_crc.md R113, D14). -/
def packetValid (p : Packet) : Bool := decide (crc24 (content p) = p.crc)

/-- `VAL` (40_crc.md R113). -/
def execVal (s : State) : Host.Outcome State Fault Refusal :=
  command s fun s => endOk (setRes (truthWord (packetValid s.pkt)) s)

end Sys2Proof.Machine
end

