-- ==== Sys2Proof/Machine/Marshal.lean ====
section
/-! DEFINITION. The marshal family (41_marshal.md): `CLR`, `SER`, `DES`, `GETF`, `SETF`, `RDB`, `WRB`. -/

namespace Sys2Proof.Machine

/-- "the number of bytes written (always 22 for this frame type)" (10_state.md R27). -/
def frameSizeWord : Word := BitVec.ofNat 32 Config.packetSize

/-- `BUF[0..21] <- Serialize(PKT)`, the step `SER` and `SEND` share (41_marshal.md R133, 43_sender.md R181 line 1). -/
def serializeToBuf (s : State) : State := writeFrame (serialize s.pkt) s

/-- `CLR` (41_marshal.md R131): `PKT <- 0`. -/
def execClr (s : State) : Host.Outcome State Fault Refusal :=
  command s fun s => endOk (setPkt Packet.cleared s)

/-- `SER` (41_marshal.md R133): `BUF[0..21] <- Serialize(PKT); RES <- 22`. -/
def execSer (s : State) : Host.Outcome State Fault Refusal :=
  command s fun s => endOk (setRes frameSizeWord (serializeToBuf s))

/-- `DES` (41_marshal.md R135): `PKT <- Deserialize(BUF[0..21])`. -/
def execDes (s : State) : Host.Outcome State Fault Refusal :=
  command s fun s => endOk (setPkt (deserialize (bufFrame s)) s)

/-- `GETF f` (41_marshal.md R140): `RES <- zext_32(x[f])`. -/
def execGetf (f : PktField) (s : State) : Host.Outcome State Fault Refusal :=
  command s fun s => endOk (setRes (fieldRead s.pkt f) s)

/-- `SETF f, v` (41_marshal.md R141): `x[f] <- trunc_w(WDATA)`. -/
def execSetf (f : PktField) (v : Word) (s : State) : Host.Outcome State Fault Refusal :=
  command s fun s => endOk (setPkt (fieldWrite s.pkt f v) s)

/-- `RDB i` (41_marshal.md R142): `RES <- zext_32(BUF[i])`. -/
def execRdb (i : BitVec 5) (s : State) : Host.Outcome State Fault Refusal :=
  command s (withOffset i fun a s => endOk (setRes (zextByte (bufByte s a)) s))

/-- `WRB i, v` (41_marshal.md R143): `BUF[i] <- WDATA[7:0]`. -/
def execWrb (i : BitVec 5) (v : Word) (s : State) : Host.Outcome State Fault Refusal :=
  command s (withOffset i fun a s => endOk (writeBuf a (truncByte v) s))

end Sys2Proof.Machine
end

