-- ==== Sys2Proof/Machine/FrameSync.lean ====
section
/-! DEFINITION. The frame synchronizer (42_framesync.md): `RECV`, as the pseudocode of R161 and the state machine of R169. -/

namespace Sys2Proof.Machine

/-- Lines 1 and 2 of 42_framesync.md R161: `BUSY <- 1; RXCNT <- 0; PKT <- 0`. -/
def recvStart (s : State) : State := setPkt Packet.cleared (setBusy s)

/-- Lines 11 to 16 of R161, the `CHECK` step of R169: deserialize, compare the CRC, and on a mismatch clear the packet, emit
`DIAG_CRC_FAIL` and end with `CRC_FAIL`. -/
def recvCheck (s : State) : State :=
  let frame := bufFrame s
  let p := deserialize frame
  if crc24 (contentOf frame) = p.crc then endOk (setPkt p s)
  else raise .crcFail (emit (.diag .crcFail) (setPkt Packet.cleared s))

/-- A byte of the frame arrived: `BUF[RXCNT] <- b; RXCNT <- RXCNT + 1` (R161 lines 6 and 10). -/
def recvStore (b : Byte) (s : State) : State := setRxcnt (s.rxcnt + 1) (writeBuf s.rxcnt b s)

/-- Collect up to `n` more bytes (R161 lines 3 to 10): stop where `RxRead` blocks, with `BUSY` still 1 (R165); end with `MISS` when
the first byte is not the marker (R162); check the frame when no byte is missing. -/
def recvCollect (n : Nat) (s : State) : State :=
  match n with
  | 0 => recvCheck s
  | n + 1 =>
    match rxNext s with
    | none => s
    | some b =>
      if s.rxcnt = 0 ∧ b ≠ Config.sof then raise .miss (rxConsume s)
      else recvCollect n (recvStore b (rxConsume s))

/-- Go on with the `RECV` in progress: the bytes still missing are 22 - `RXCNT` (10_state.md R29). -/
def recvContinue (s : State) : State := recvCollect (Config.packetSize - s.rxcnt) s

/-- `RECV` (42_framesync.md R161). It ends, or stays in progress where the transport has no byte (R165); a blocked `RECV` goes on
in a later turn of the core, or ends with `TIMEOUT` in a turn of the transport (`rxTimeoutTurn`). -/
def execRecv (s : State) : Host.Outcome State Fault Refusal :=
  command s fun s => recvContinue (recvStart s)

/-- The transport ends a blocked `RxRead` with `timeout`: "in mode `timeout` only" and "available only while no byte is available"
(20_memory.md R55, R56). The `RECV` ends with `TIMEOUT` (42_framesync.md R164). In any other case the transport cannot do
so and nothing happens (log 14). -/
def rxTimeoutTurn (s : State) : State :=
  if blocked s && decide (s.rxMode = .timeout) then raise .timeout s else s

end Sys2Proof.Machine
end

