-- ==== Sys2Proof/Machine/Sender.lean ====
section
/-! DEFINITION. The frame sender (43_sender.md): `SEND`. -/

namespace Sys2Proof.Machine

/-- `TxWrite(BUF[0..21])`: one block of 22 bytes, offset 0 first (20_memory.md R57, 43_sender.md R181 line 2). -/
def transmitBuf (s : State) : State := emit (.txWrite (bufFrame s)) s

/-- `TxFlush()` (20_memory.md R58, 43_sender.md R181 line 3). -/
def flushTransport (s : State) : State := emit .txFlush s

/-- Lines 1 to 5 of 43_sender.md R181. -/
def sendFrame (s : State) : State := endOk (setRes frameSizeWord (flushTransport (transmitBuf (serializeToBuf s))))

/-- `SEND` (43_sender.md R181). -/
def execSend (s : State) : Host.Outcome State Fault Refusal :=
  command s sendFrame

end Sys2Proof.Machine
end

