-- ==== Sys2Proof/Machine/WireOpCode.lean ====
section
/-! DEFINITION. The five wire values of the packet field `opCode` (30_encoding.md R85), rows of the opcode table that are no commands.
"The core does not interpret `opCode`" (R86): acting on one changes nothing in the core, and what the node's dispatch logic does
then is outside the spec (00_scope.md R4). Log 12. -/

namespace Sys2Proof.Machine

/-- The core's part when the node acts on an `opCode` value: it carries the value and is left as it is (30_encoding.md R86). -/
def carryOpCode (s : State) : State := s

/-- Wire value 1000, "get temperature reading" (30_encoding.md R85, R86). -/
def execOpCode1000 (s : State) : Host.Outcome State Fault Refusal := .next (carryOpCode s)

/-- Wire value 1001, "configure a pin as input" (30_encoding.md R85, R86). -/
def execOpCode1001 (s : State) : Host.Outcome State Fault Refusal := .next (carryOpCode s)

/-- Wire value 1002, "read a digital pin" (30_encoding.md R85, R86). -/
def execOpCode1002 (s : State) : Host.Outcome State Fault Refusal := .next (carryOpCode s)

/-- Wire value 1003, "configure an analog pin as input" (30_encoding.md R85, R86). -/
def execOpCode1003 (s : State) : Host.Outcome State Fault Refusal := .next (carryOpCode s)

/-- Wire value 1004, "read an analog pin" (30_encoding.md R85, R86). -/
def execOpCode1004 (s : State) : Host.Outcome State Fault Refusal := .next (carryOpCode s)

end Sys2Proof.Machine
end

