-- ==== Sys2Proof/Machine/Dispatch.lean ====
section
/-! DEFINITION. exec: one arm per constructor of Instr. -/

namespace Sys2Proof.Machine

def exec (i : Instr) (s : State) : Host.Outcome State Fault Refusal :=
  match i with
  | .clr => Sys2Proof.Machine.execClr s
  | .ser => Sys2Proof.Machine.execSer s
  | .des => Sys2Proof.Machine.execDes s
  | .crc => Sys2Proof.Machine.execCrc s
  | .val => Sys2Proof.Machine.execVal s
  | .recv => Sys2Proof.Machine.execRecv s
  | .send => Sys2Proof.Machine.execSend s
  | .getf f => Sys2Proof.Machine.execGetf f s
  | .setf f v => Sys2Proof.Machine.execSetf f v s
  | .rdb a => Sys2Proof.Machine.execRdb a s
  | .wrb a v => Sys2Proof.Machine.execWrb a v s
  | .opCode1000 => Sys2Proof.Machine.execOpCode1000 s
  | .opCode1001 => Sys2Proof.Machine.execOpCode1001 s
  | .opCode1002 => Sys2Proof.Machine.execOpCode1002 s
  | .opCode1003 => Sys2Proof.Machine.execOpCode1003 s
  | .opCode1004 => Sys2Proof.Machine.execOpCode1004 s

end Sys2Proof.Machine
end

