-- ==== Sys2Proof/Machine/Turns.lean ====
section
/-! DEFINITION. What each agent does in its turn: the core takes the presented command or goes on with `RECV`, the node dispatches
on `opCode`, the transport receives a byte or times out, reset strikes. -/

namespace Sys2Proof.Machine

/-- The command the host presents next: entry `pc` of the program; none when the program has ended (10_state.md R30). -/
def presented (s : State) : Option Command := s.program[s.pc]?

/-- Run the presented command: an illegal word ends with `RC = ILLEGAL` (60_exceptions.md R192, R193 (1)), a legal one runs.
With no command presented the core stays as it is (log 11). -/
def runPresented (s : State) : Host.Outcome State Fault Refusal :=
  match presented s with
  | none => .next s
  | some c =>
    match decode (.command c) with
    | .ok i => exec i s
    | .error _ => .next (illegalCommand s)

/-- The core's turn. While `BUSY` = 1 it goes on with the `RECV` in progress and accepts no command (10_state.md R29); a `RECV`
with no byte to read stays as it is, "stuck, not final and not a fault" (42_framesync.md R165). -/
def coreTurn (s : State) : Host.Outcome State Fault Refusal :=
  if s.busy then .next (recvContinue s) else runPresented s

/-- The node's main loop dispatches on `PKT.opCode` (log 12). The five values of 30_encoding.md R85 are instructions; "Every value
other than the five ... passes through the core like any other; the core raises nothing for it" (R86). While a command is in
progress the host, "being the same single thread, waits too" (42_framesync.md R165). -/
def dispatchTurn (s : State) : Host.Outcome State Fault Refusal :=
  if s.busy then .next s
  else
    match decode (.wireOpCode s.pkt.opCode) with
    | .ok i => exec i s
    | .error _ => .next (carryOpCode s)

/-- The state the core's turn would reach. -/
def afterCoreTurn (s : State) : State :=
  match coreTurn s with
  | .next t => t
  | .fault _ => s
  | .refused _ => s

/-- Reset strikes after `n` transport actions of the command that runs in this turn of the core (70_reset_and_hazards.md R220, R221;
log 15). A command's actions are its reads, then its events: `RECV` reads up to 22 bytes and may emit one `Diag`, `SEND`
emits a `TxWrite` and a `TxFlush`, the others have none. The bytes read are gone, the events emitted stay emitted, and the core
is reset "without writing that command's results". -/
def resetDuringTurn (n : Nat) (s : State) : State :=
  let t := afterCoreTurn s
  let reads := t.rxpos - s.rxpos
  let events := t.out.drop s.out.length
  resetCore { s with rxpos := s.rxpos + min n reads, out := s.out ++ events.take (n - reads) }

/-- What the agent whose turn it is does. -/
def takeTurn (t : Turn) (s : State) : Host.Outcome State Fault Refusal :=
  match t with
  | .core => coreTurn s
  | .dispatch => dispatchTurn s
  | .rxByte b => .next (deliver b s)
  | .rxTimeout => .next (rxTimeoutTurn s)
  | .reset => .next (resetCore s)
  | .resetDuring n => .next (resetDuringTurn n s)

/-- The next turn and the state with it taken off the schedule; an empty schedule leaves every turn to the core (log 5). -/
def nextTurn (s : State) : Turn × State :=
  match s.schedule with
  | [] => (.core, s)
  | t :: rest => (t, { s with schedule := rest })

/-- A program with `c` at index `n`; indexes the program lacks below `n` are filled with the illegal word 0x0000. -/
def placeCommand (program : List Command) (n : Nat) (c : Command) : List Command :=
  match program, n with
  | [], 0 => [c]
  | [], n + 1 => ⟨0, 0⟩ :: placeCommand [] n c
  | _ :: rest, 0 => c :: rest
  | d :: rest, n + 1 => d :: placeCommand rest n c

/-- A schedule on which the core moves first: an empty one already is. -/
def coreFirst (schedule : List Turn) : List Turn :=
  match schedule with
  | [] => []
  | t :: rest => .core :: t :: rest

/-- `s` with the encoded instruction where the next step takes it: a command at `program[pc]` with the core idle and on turn; a wire
value in `PKT.opCode` with the node's dispatch on turn (log 4, log 12). -/
def placeEncoded (e : Encoded) (s : State) : State :=
  match e with
  | .command c => { s with busy := false, program := placeCommand s.program s.pc c, schedule := coreFirst s.schedule }
  | .wireOpCode v => { s with busy := false, pkt := { s.pkt with opCode := v }, schedule := .dispatch :: s.schedule }

end Sys2Proof.Machine
end

