-- ==== Sys2Proof/Machine/Step.lean ====
section
/-! DEFINITION. One step of the machine: the agent whose turn it is makes its move. -/

namespace Sys2Proof.Machine

/-- One step: take the next turn off the schedule and let that agent move (log 5). -/
def step (s : State) : Host.Outcome State Fault Refusal :=
  takeTurn (nextTurn s).1 (nextTurn s).2

/-- `s` with an opcode-table word placed so that the very next step runs it. -/
def State.withFetchWord (s : State) (nbits w : Nat) : State :=
  placeEncoded (encodedOfTableWord nbits w) s

end Sys2Proof.Machine
end

