-- ==== Sys2Proof/Machine/Asm.lean ====
section
/-! DEFINITION. The assembler's line form (30_encoding.md R97) and the four pseudo-instructions (R98). Text is a list of characters. -/

namespace Sys2Proof.Machine

/-- `LOADPKT a, b, c, d, e, g`: "populate the six caller-owned fields" (30_encoding.md R98). -/
def expandLoadpkt (a b c d e g : Word) : List Instr :=
  [.setf .id a, .setf .clientId b, .setf .opCode c, .setf .pin d, .setf .pinMode e, .setf .data g]

/-- `CHECK` (30_encoding.md R98). -/
def expandCheck : List Instr := [.des, .val]

/-- `SEAL` (30_encoding.md R98). -/
def expandSeal : List Instr := [.ser, .des]

/-- The first command of `FLIPB i, m` (30_encoding.md R98). -/
def flipbRead (i : BitVec 5) : Instr := .rdb i

/-- The second command of `FLIPB i, m`, "issued by the host with the value it read": `WRB i, (RES XOR m)[7:0]` (30_encoding.md R98). -/
def flipbWrite (i : BitVec 5) (m res : Word) : Instr := .wrb i ((res ^^^ m).setWidth 8 |>.setWidth 32)

/-- A word of an assembler line. -/
abbrev Token := List Char

/-- "Comments start with `;`" (30_encoding.md R97). -/
def stripComment (line : List Char) : List Char := line.takeWhile (fun c => decide (c ≠ ';'))

/-- Blanks and commas part the words of a line (log 21). -/
def isSeparator (c : Char) : Bool := decide (c = ' ') || (decide (c = ',') || decide (c = '\t'))

/-- The words of a line; `acc` holds the word being read, reversed. -/
def tokens (acc : List Char) (line : List Char) : List Token :=
  match line with
  | [] => if acc = [] then [] else [acc.reverse]
  | c :: rest =>
    if isSeparator c then (if acc = [] then tokens [] rest else acc.reverse :: tokens [] rest)
    else tokens (c :: acc) rest

/-- The value of one digit, decimal or hexadecimal. -/
def digitValue (c : Char) : Nat :=
  let n := c.toNat
  if 48 ≤ n ∧ n ≤ 57 then n - 48
  else if 65 ≤ n ∧ n ≤ 70 then n - 55
  else if 97 ≤ n ∧ n ≤ 102 then n - 87
  else 16

/-- Digits in a base, the most significant first. -/
def readDigits (base acc : Nat) (t : Token) : Option Nat :=
  match t with
  | [] => some acc
  | c :: rest => if digitValue c < base then readDigits base (acc * base + digitValue c) rest else none

/-- A number: "decimal or `0x` hexadecimal" (30_encoding.md R97). -/
def readNat (t : Token) : Option Nat :=
  match t with
  | [] => none
  | ['0', 'x'] => none
  | '0' :: 'x' :: digits => readDigits 16 0 digits
  | digits => readDigits 10 0 digits

/-- A value operand: "at most 32 bits" (30_encoding.md R97). -/
def readValue (t : Token) : Option Word :=
  match readNat t with
  | some n => if n < 4294967296 then some (BitVec.ofNat 32 n) else none
  | none => none

/-- A buffer offset: "a decimal number 0 to 21" (30_encoding.md R97). -/
def readOffset (t : Token) : Option (BitVec 5) :=
  if t = [] then none
  else
    match readDigits 10 0 t with
    | some n => if n < Config.packetSize then some (BitVec.ofNat 5 n) else none
    | none => none

/-- A field operand: "by name ... or by its number 0 to 6" (30_encoding.md R97). -/
def readField (t : Token) : Option PktField :=
  if t = ['i', 'd'] then some .id
  else if t = ['c', 'l', 'i', 'e', 'n', 't', 'I', 'd'] then some .clientId
  else if t = ['o', 'p', 'C', 'o', 'd', 'e'] then some .opCode
  else if t = ['p', 'i', 'n'] then some .pin
  else if t = ['p', 'i', 'n', 'M', 'o', 'd', 'e'] then some .pinMode
  else if t = ['d', 'a', 't', 'a'] then some .data
  else if t = ['c', 'r', 'c'] then some .crc
  else
    match t with
    | [c] => fieldOfSelect (digitValue c)
    | _ => none

/-- A line without operands. -/
def readPlain (m : Token) : Option (List Instr) :=
  if m = ['C', 'L', 'R'] then some [.clr]
  else if m = ['S', 'E', 'R'] then some [.ser]
  else if m = ['D', 'E', 'S'] then some [.des]
  else if m = ['C', 'R', 'C'] then some [.crc]
  else if m = ['V', 'A', 'L'] then some [.val]
  else if m = ['R', 'E', 'C', 'V'] then some [.recv]
  else if m = ['S', 'E', 'N', 'D'] then some [.send]
  else if m = ['C', 'H', 'E', 'C', 'K'] then some expandCheck
  else if m = ['S', 'E', 'A', 'L'] then some expandSeal
  else none

/-- A line with one operand. -/
def readUnary (m a : Token) : Option (List Instr) :=
  if m = ['G', 'E', 'T', 'F'] then (readField a).map fun f => [.getf f]
  else if m = ['R', 'D', 'B'] then (readOffset a).map fun i => [.rdb i]
  else none

/-- A line with two operands. -/
def readBinary (m a b : Token) : Option (List Instr) :=
  if m = ['S', 'E', 'T', 'F'] then
    match readField a, readValue b with
    | some f, some v => some [.setf f v]
    | _, _ => none
  else if m = ['W', 'R', 'B'] then
    match readOffset a, readValue b with
    | some i, some v => some [.wrb i v]
    | _, _ => none
  else none

/-- `LOADPKT` with its six operands. -/
def readLoadpkt (m a b c d e g : Token) : Option (List Instr) :=
  if m = ['L', 'O', 'A', 'D', 'P', 'K', 'T'] then
    match readValue a, readValue b, readValue c, readValue d, readValue e, readValue g with
    | some a, some b, some c, some d, some e, some g => some (expandLoadpkt a b c d e g)
    | _, _, _, _, _, _ => none
  else none

/-- The commands of one line: none for a blank or comment line, one for a command, more for a pseudo-instruction that is a pure
expansion. `FLIPB` "is not a pure macro" (30_encoding.md R98): a host issues `flipbRead`, then `flipbWrite`. -/
def assembleLine (line : List Char) : Option (List Instr) :=
  match tokens [] (stripComment line) with
  | [] => some []
  | [m] => readPlain m
  | [m, a] => readUnary m a
  | [m, a, b] => readBinary m a b
  | [m, a, b, c, d, e, g] => readLoadpkt m a b c d e g
  | _ => none

end Sys2Proof.Machine
end

