-- ==== Sys2Proof/Safety.lean ====
section
/-! DEFINITION. What claims about runs speak of: the invariant of the machine's state, the end of a run, the transmitted stream, and
the legal command words. -/

namespace Sys2Proof.Machine

/-- The run has ended: "`pc` equals the length of the command list and `BUSY` = 0" (70_reset_and_hazards.md R229). -/
def State.runEnded (s : State) : Bool := decide (s.pc = s.program.length) && !s.busy

/-- What holds while a `RECV` is in progress (10_state.md R29): the packet is cleared, fewer than 22 bytes have come, and `BUF`
holds them, which are the last `RXCNT` bytes the core consumed, the first of them the marker. -/
structure State.Receiving (s : State) : Prop where
  cleared : s.pkt = Packet.cleared
  missing : s.rxcnt < Config.packetSize
  consumed : s.rxcnt ≤ s.rxpos
  presented : s.pc < s.program.length
  received : ∀ k, k < s.rxcnt → Memory.read? s.buf k = s.rx[s.rxpos - s.rxcnt + k]?
  marker : 0 < s.rxcnt → Memory.read? s.buf 0 = some Config.sof

/-- The invariant of the state: `BUF` canonical, the transport's read position within what it has received, `RXCNT` 0 to 22, the
program's index within the program, and the receive state as R29 says while `BUSY` = 1. -/
structure State.Inv (s : State) : Prop where
  buf : Memory.wf s.buf = true
  rxpos : s.rxpos ≤ s.rx.length
  rxcnt : s.rxcnt ≤ Config.packetSize
  pc : s.pc ≤ s.program.length
  receiving : s.busy = true → s.Receiving

/-- Every block ever handed to the transport is an acceptable frame (43_sender.md R182, 30_encoding.md R87). -/
def State.SentAcceptable (s : State) : Prop := ∀ bytes, OutEvent.txWrite bytes ∈ s.out → acceptable bytes = true

/-- The bytes an event appends to the TX stream (20_memory.md R57). -/
def txBytesOf (e : OutEvent) : List Byte :=
  match e with
  | .txWrite bytes => bytes
  | .txFlush => []
  | .diag _ => []

/-- The TX stream: the blocks written, in order (20_memory.md R50, R57). -/
def State.txStream (s : State) : List Byte := s.out.flatMap txBytesOf

/-- The bytes the transport holds that no `RxRead` has taken yet (20_memory.md R55). -/
def State.unread (s : State) : List Byte := s.rx.drop s.rxpos

/-- The 65 legal command words, listed from the bit patterns of 30_encoding.md R90. -/
def legalWords : List CmdWord :=
  [0x0100, 0x0200, 0x0300, 0x0400, 0x0500, 0x0600, 0x0700]
    ++ (List.range 7).map (fun f => BitVec.ofNat 16 (0x0800 + f))
    ++ (List.range 7).map (fun f => BitVec.ofNat 16 (0x0900 + f))
    ++ (List.range 22).map (fun i => BitVec.ofNat 16 (0x0A00 + i))
    ++ (List.range 22).map (fun i => BitVec.ofNat 16 (0x0B00 + i))

/-- The illegal command words as 30_encoding.md R94 lists them by `op` and `arg`. -/
def illegalWord (cw : CmdWord) : Bool :=
  let op := cw.toNat / 256
  let arg := cw.toNat % 256
  decide (op = 0) || (decide (0x0C ≤ op) || ((decide (1 ≤ op ∧ op ≤ 7) && decide (arg ≠ 0))
    || ((decide (op = 8 ∨ op = 9) && decide (6 < arg)) || (decide (op = 10 ∨ op = 11) && decide (0x15 < arg)))))

/-- The frame image read as one big-endian number `FR` (30_encoding.md R81). -/
def frameNumber (acc : Nat) (bytes : List Byte) : Nat :=
  match bytes with
  | [] => acc
  | b :: rest => frameNumber (acc * 256 + b.toNat) rest

/-- Bit `j` of a byte sequence flipped; bit 0 is the least significant bit of byte 0, bit 8 that of byte 1 (40_crc.md R116). -/
def flipBit (j : Nat) (bytes : List Byte) : List Byte :=
  match bytes with
  | [] => []
  | b :: rest => if j < 8 then (b ^^^ (1 <<< j)) :: rest else b :: flipBit (j - 8) rest

/-- The width of a field register in bits (10_state.md R21, 41_marshal.md R141). -/
def fieldWidth (f : PktField) : Nat :=
  match f with
  | .id => 32
  | .clientId => 32
  | .opCode => 32
  | .pin => 8
  | .pinMode => 8
  | .data => 32
  | .crc => 24

/-- The unsigned value of a field register (10_state.md R21). -/
def fieldNat (p : Packet) (f : PktField) : Nat :=
  match f with
  | .id => p.id.toNat
  | .clientId => p.clientId.toNat
  | .opCode => p.opCode.toNat
  | .pin => p.pin.toNat
  | .pinMode => p.pinMode.toNat
  | .data => p.data.toNat
  | .crc => p.crc.toNat

/-- The eleven commands of 30_encoding.md R90, apart from the five wire values of R85. -/
def isCommand (i : Instr) : Bool :=
  match i with
  | .clr => true
  | .ser => true
  | .des => true
  | .crc => true
  | .val => true
  | .recv => true
  | .send => true
  | .getf _ => true
  | .setf _ _ => true
  | .rdb _ => true
  | .wrb _ _ => true
  | .opCode1000 => false
  | .opCode1001 => false
  | .opCode1002 => false
  | .opCode1003 => false
  | .opCode1004 => false

/-- The nine commands that "touch no transport, emit no event and cannot block" (41_marshal.md R138). -/
def isLocalCommand (i : Instr) : Bool := isCommand i && !(decide (i = .recv) || decide (i = .send))

/-- The six commands that write `RES` (10_state.md R27). -/
def writesRes (i : Instr) : Bool :=
  match i with
  | .clr => false
  | .ser => true
  | .des => false
  | .crc => true
  | .val => true
  | .recv => false
  | .send => true
  | .getf _ => true
  | .setf _ _ => false
  | .rdb _ => true
  | .wrb _ _ => false
  | .opCode1000 => false
  | .opCode1001 => false
  | .opCode1002 => false
  | .opCode1003 => false
  | .opCode1004 => false

/-- The state after a state's next command `i` ended or blocked; the state itself where `exec` gives no next state. -/
def afterExec (i : Instr) (s : State) : State :=
  match exec i s with
  | .next t => t
  | .fault _ => s
  | .refused _ => s

/-- `n` commands `i` one after the other. -/
def repeatExec (i : Instr) (n : Nat) (s : State) : State :=
  match n with
  | 0 => s
  | n + 1 => repeatExec i n (afterExec i s)

end Sys2Proof.Machine
end

