-- ==== Sys2Proof/Certificates/Slice0/Obligations.lean ====
section
/-! DEFINITION. The statements for the provers, from the numbered rules of spec/. `OBLIGATIONS.json` lists them. -/

open Sys2Proof Sys2Proof.Machine

/-! ### Encodings -/

/-- Every well-formed instruction, of both encoded forms and with every operand, is read back from its encoding
(30_encoding.md R85, R90, R92, R93). -/
def Obligations.DecodeOfEncode : Prop :=
  ∀ i : Instr, i.wf = true → decode (encode i) = .ok i

/-- Each command word has one meaning: what a word decodes to is well formed, encodes to that word, and carries `WDATA` as its value
operand where it has one (30_encoding.md R90, R91, R95). -/
def Obligations.EncodeOfDecode : Prop :=
  (∀ (c : Command) (i : Instr), decodeCommand c = .ok i →
    i.wf = true ∧ (∃ wd, encode i = .command ⟨c.cw, wd⟩)
      ∧ (∀ f v, i = .setf f v → v = c.wdata) ∧ (∀ a v, i = .wrb a v → v = c.wdata))
  ∧ (∀ (v : Word) (i : Instr), decodeWireOpCode v = .ok i → i.wf = true ∧ encode i = .wireOpCode v)

/-- 30_encoding.md R94 and 60_exceptions.md R192: exactly the 65 listed words are legal, the words R94 lists by `op` and `arg` are the
illegal ones, and presenting one to the idle core sets `RC` to `ILLEGAL`, counts as an ended command, and changes nothing else. -/
def Obligations.IllegalWordsOnlySetRc : Prop :=
  (∀ c : Command, (∃ i, decodeCommand c = .ok i) ↔ c.cw ∈ legalWords)
  ∧ legalWords.length = 65 ∧ legalWords.Nodup
  ∧ (∀ cw : CmdWord, illegalWord cw = true ↔ cw ∉ legalWords)
  ∧ (∀ (s : State) (c : Command), s.busy = false → presented s = some c → c.cw ∉ legalWords →
      coreTurn s = .next { s with rc := .illegal, pc := s.pc + 1 })

/-- 30_encoding.md R91: only `SETF` and `WRB` look at the operand, `SETF` at the low bits of its field's width, `WRB` at the low byte. -/
def Obligations.OperandUse : Prop :=
  (∀ (cw : CmdWord) (wd wd' : Word) (i : Instr), decodeCommand ⟨cw, wd⟩ = .ok i →
      (∀ f v, i ≠ .setf f v) → (∀ a v, i ≠ .wrb a v) → decodeCommand ⟨cw, wd'⟩ = .ok i)
  ∧ (∀ (cw : CmdWord) (wd v : Word) (f : PktField), decodeCommand ⟨cw, wd⟩ = .ok (.setf f v) → v = wd)
  ∧ (∀ (cw : CmdWord) (wd v : Word) (a : BitVec 5), decodeCommand ⟨cw, wd⟩ = .ok (.wrb a v) → v = wd)
  ∧ (∀ (f : PktField) (v v' : Word) (s : State), v.toNat % 2 ^ fieldWidth f = v'.toNat % 2 ^ fieldWidth f →
      exec (.setf f v) s = exec (.setf f v') s)
  ∧ (∀ (a : BitVec 5) (v v' : Word) (s : State), v.toNat % 256 = v'.toNat % 256 →
      exec (.wrb a v) s = exec (.wrb a v') s)

/-- Command words written out bit by bit from 30_encoding.md R90, and the five wire values of R85, decode to the instructions they
stand for; seven illegal neighbours do not decode. -/
def Obligations.WrittenOutWordsDecode : Prop :=
  decodeCommand ⟨0b0000000100000000, 5⟩ = .ok .clr
  ∧ decodeCommand ⟨0b0000001000000000, 0⟩ = .ok .ser
  ∧ decodeCommand ⟨0b0000001100000000, 0⟩ = .ok .des
  ∧ decodeCommand ⟨0b0000010000000000, 0⟩ = .ok .crc
  ∧ decodeCommand ⟨0b0000010100000000, 0⟩ = .ok .val
  ∧ decodeCommand ⟨0b0000011000000000, 0⟩ = .ok .recv
  ∧ decodeCommand ⟨0b0000011100000000, 0⟩ = .ok .send
  ∧ decodeCommand ⟨0b0000100000000110, 0⟩ = .ok (.getf .crc)
  ∧ decodeCommand ⟨0b0000100100000010, 1000⟩ = .ok (.setf .opCode 1000)
  ∧ decodeCommand ⟨0b0000101000010010, 0⟩ = .ok (.rdb 18)
  ∧ decodeCommand ⟨0b0000101100010101, 1⟩ = .ok (.wrb 21 1)
  ∧ decodeTableWord 32 0x000003E8 = some .opCode1000
  ∧ decodeTableWord 32 0x000003E9 = some .opCode1001
  ∧ decodeTableWord 32 0x000003EA = some .opCode1002
  ∧ decodeTableWord 32 0x000003EB = some .opCode1003
  ∧ decodeTableWord 32 0x000003EC = some .opCode1004
  ∧ decodeTableWord 16 0x0000 = none ∧ decodeTableWord 16 0x0101 = none ∧ decodeTableWord 16 0x0807 = none
  ∧ decodeTableWord 16 0x0808 = none ∧ decodeTableWord 16 0x0A16 = none ∧ decodeTableWord 16 0x0A20 = none
  ∧ decodeTableWord 16 0x0C00 = none

/-- The assembler's examples of 30_encoding.md R97 and the pure pseudo-instructions of R98. -/
def Obligations.AssemblerExamples : Prop :=
  (assembleLine ['S', 'E', 'T', 'F', ' ', 'o', 'p', 'C', 'o', 'd', 'e', ',', ' ', '1', '0', '0', '0']).map (List.map encode)
      = some [.command ⟨0x0902, 0x000003E8⟩]
  ∧ (assembleLine ['R', 'D', 'B', ' ', '1', '8']).map (List.map encode) = some [.command ⟨0x0A12, 0⟩]
  ∧ (assembleLine ['R', 'E', 'C', 'V']).map (List.map encode) = some [.command ⟨0x0600, 0⟩]
  ∧ (assembleLine ['C', 'H', 'E', 'C', 'K']).map (List.map encode) = some [.command ⟨0x0300, 0⟩, .command ⟨0x0500, 0⟩]
  ∧ (assembleLine ['S', 'E', 'A', 'L', ' ', ';', 'x']).map (List.map encode) = some [.command ⟨0x0200, 0⟩, .command ⟨0x0300, 0⟩]

/-! ### The CRC -/

/-- The special values of 40_crc.md R118, the second half with the register started at 0. -/
def Obligations.Crc24SpecialValues : Prop :=
  crc24 [] = 0xB704CE ∧ crc24 [0x00] = 0x6169D3 ∧ crc24 [0x7E] = 0x09E7B4 ∧ crc24 [0xFF] = 0xBCECEB
  ∧ crc24 [0x31, 0x32, 0x33, 0x34, 0x35, 0x36, 0x37, 0x38, 0x39] = 0x21CF02
  ∧ crc24 (0x7E :: List.replicate 18 0x00) = 0x0CFA3A ∧ crc24 (0x7E :: List.replicate 18 0xFF) = 0x2B3384
  ∧ crcFrom 0 [0x00] = 0x000000 ∧ crcFrom 0 [0x01] = 0x864CFB ∧ crcFrom 0 [0x02] = 0x8AD50D
  ∧ crcFrom 0 [0x7E] = 0x688E67 ∧ crcFrom 0 [0x80] = 0x3347A4 ∧ crcFrom 0 [0xFF] = 0xDD8538

/-- 40_crc.md R117: a sequence followed by its own CRC has CRC 0, and a 22-byte sequence is an acceptable frame if and only if it
begins with the marker and its CRC over all 22 bytes is 0. -/
def Obligations.CrcResidue : Prop :=
  (∀ m : List Byte, crc24 (m ++ bytes3 (crc24 m)) = 0)
  ∧ (∀ b : List Byte, b.length = 22 → (acceptable b = true ↔ byteAt b 0 = 0x7E ∧ crc24 b = 0))

/-- 40_crc.md R116: flipping any one bit, or any two bits, among the 152 content bits changes `CRC24` of the content. -/
def Obligations.CrcDetectsOneAndTwoFlips : Prop :=
  ∀ b : List Byte, b.length = 19 → ∀ j k : Nat, j < 152 → k < 152 →
    crc24 (flipBit j b) ≠ crc24 b ∧ (j ≠ k → crc24 (flipBit j (flipBit k b)) ≠ crc24 b)

/-- 40_crc.md R114: right after `DES`, the field form and the buffer form of the integrity value agree if and only if `BUF[0]` is the
marker. -/
def Obligations.FieldFormAgreesWithBufferForm : Prop :=
  ∀ s : State, s.busy = false → ∃ t, exec .des s = .next t
    ∧ (crc24 ((serialize t.pkt).take 19) = crc24 ((bufFrame t).take 19) ↔ bufByte s 0 = 0x7E)

/-! ### The frame and the pair Serialize, Deserialize -/

/-- 30_encoding.md R81: the frame has 22 bytes, and read as one big-endian number it holds each field at the bit positions of the
table, the integrity field being `CRC24` of offsets 0 to 18. -/
def Obligations.FrameLayout : Prop :=
  ∀ p : Packet, (serialize p).length = 22
    ∧ frameNumber 0 (serialize p) = 0x7E * 2 ^ 168 + p.id.toNat * 2 ^ 136 + p.clientId.toNat * 2 ^ 104 + p.opCode.toNat * 2 ^ 72
        + p.pin.toNat * 2 ^ 64 + p.pinMode.toNat * 2 ^ 56 + p.data.toNat * 2 ^ 24 + (crc24 ((serialize p).take 19)).toNat

/-- 41_marshal.md R136: deserializing a serialized packet gives its six fields back and the right CRC in the seventh; as commands,
`SER` then `DES`. -/
def Obligations.SerializeThenDeserialize : Prop :=
  (∀ p : Packet, deserialize (serialize p) = { p with crc := crc24 ((serialize p).take 19) })
  ∧ (∀ s : State, s.busy = false → ∃ t u, exec .ser s = .next t ∧ exec .des t = .next u
      ∧ u.pkt = { s.pkt with crc := crc24 ((serialize s.pkt).take 19) })

/-- 41_marshal.md R137: serializing a deserialized image keeps bytes 1 to 18 and gives the image back exactly when it is an acceptable
frame; as commands, `DES` then `SER` repairs marker and CRC of whatever was in `BUF`. -/
def Obligations.DeserializeThenSerialize : Prop :=
  (∀ b : List Byte, b.length = 22 →
    ((serialize (deserialize b)).drop 1).take 18 = (b.drop 1).take 18
    ∧ (serialize (deserialize b) = b ↔ acceptable b = true))
  ∧ (∀ s : State, s.busy = false → ∃ t u, exec .des s = .next t ∧ exec .ser t = .next u
      ∧ acceptable (bufFrame u) = true ∧ (∀ k, 1 ≤ k → k ≤ 18 → bufByte u k = bufByte s k))

/-- 40_crc.md R115, the integrity law: for every packet, `SER`, `DES`, `VAL` one after the other all complete and leave `RES` = 1. -/
def Obligations.IntegrityLaw : Prop :=
  ∀ s : State, s.busy = false → ∃ t u v, exec .ser s = .next t ∧ exec .des t = .next u ∧ exec .val u = .next v
    ∧ v.res = 1 ∧ v.rc = .ok

/-- 41_marshal.md R138: the nine local commands touch no transport, emit no event and do not block, and running one twice in a row
gives the same state as running it once, but for the program's index, which is not the core's. -/
def Obligations.LocalCommandsIdempotent : Prop :=
  ∀ (i : Instr) (s t : State), isLocalCommand i = true → exec i s = .next t →
    exec i t = .next { t with pc := t.pc + 1 }
    ∧ t.rx = s.rx ∧ t.rxpos = s.rxpos ∧ t.out = s.out ∧ t.busy = false

/-- 20_memory.md R62: after `SER`, `RDB` of offsets 1 to 4 gives the bytes of `PKT.id`, the most significant first; after a `WRB 18` and
a `DES` the low byte of `PKT.data` is the byte written. -/
def Obligations.ByteViewIsBigEndian : Prop :=
  (∀ (s : State) (k : BitVec 5), s.busy = false → 1 ≤ k.toNat → k.toNat ≤ 4 → ∃ t u, exec .ser s = .next t ∧ exec (.rdb k) t = .next u
    ∧ u.res.toNat = s.pkt.id.toNat / 256 ^ (4 - k.toNat) % 256)
  ∧ (∀ (s : State) (v : Word), s.busy = false → ∃ t u, exec (.wrb 18 v) s = .next t ∧ exec .des t = .next u
    ∧ u.pkt.data.toNat % 256 = v.toNat % 256)

/-! ### The commands on the packet and the buffer -/

/-- 41_marshal.md R131, `CLR`, with everything it leaves as it was. -/
def Obligations.ClrResult : Prop :=
  (∀ wd, decodeCommand ⟨0x0100, wd⟩ = .ok .clr)
  ∧ (∀ s : State, s.busy = false → exec .clr s = .next { s with pkt := ⟨0, 0, 0, 0, 0, 0, 0⟩, rc := .ok, pc := s.pc + 1 })
  ∧ Packet.cleared.opCode ∉ ([1000, 1001, 1002, 1003, 1004] : List Word)

/-- 41_marshal.md R133, `SER`: all 22 bytes of `BUF`, `RES`, `RC`, and nothing else; the frame in `BUF` is then acceptable. -/
def Obligations.SerResult : Prop :=
  (∀ wd, decodeCommand ⟨0x0200, wd⟩ = .ok .ser)
  ∧ (∀ s : State, s.busy = false → ∃ t, exec .ser s = .next t
      ∧ bufFrame t = serialize s.pkt ∧ acceptable (bufFrame t) = true
      ∧ t = { s with buf := t.buf, res := 22, rc := .ok, pc := s.pc + 1 }
      ∧ (∀ a, 22 ≤ a → bufByte t a = bufByte s a))

/-- 41_marshal.md R135, `DES`: the seven fields from offsets 1 to 21, `RC`, and nothing else. -/
def Obligations.DesResult : Prop :=
  (∀ wd, decodeCommand ⟨0x0300, wd⟩ = .ok .des)
  ∧ (∀ s : State, s.busy = false → ∃ t, exec .des s = .next t
      ∧ t.pkt.id.toNat = (bufByte s 1).toNat * 2 ^ 24 + (bufByte s 2).toNat * 2 ^ 16 + (bufByte s 3).toNat * 2 ^ 8 + (bufByte s 4).toNat
      ∧ t.pkt.clientId.toNat = (bufByte s 5).toNat * 2 ^ 24 + (bufByte s 6).toNat * 2 ^ 16 + (bufByte s 7).toNat * 2 ^ 8 + (bufByte s 8).toNat
      ∧ t.pkt.opCode.toNat = (bufByte s 9).toNat * 2 ^ 24 + (bufByte s 10).toNat * 2 ^ 16 + (bufByte s 11).toNat * 2 ^ 8 + (bufByte s 12).toNat
      ∧ t.pkt.pin = bufByte s 13 ∧ t.pkt.pinMode = bufByte s 14
      ∧ t.pkt.data.toNat = (bufByte s 15).toNat * 2 ^ 24 + (bufByte s 16).toNat * 2 ^ 16 + (bufByte s 17).toNat * 2 ^ 8 + (bufByte s 18).toNat
      ∧ t.pkt.crc.toNat = (bufByte s 19).toNat * 2 ^ 16 + (bufByte s 20).toNat * 2 ^ 8 + (bufByte s 21).toNat
      ∧ t = { s with pkt := t.pkt, rc := .ok, pc := s.pc + 1 })

/-- 40_crc.md R112, `CRC`: `RES` is the CRC of `BUF[0..18]`, zero-extended; only `RES` and `RC` are written. -/
def Obligations.CrcResult : Prop :=
  (∀ wd, decodeCommand ⟨0x0400, wd⟩ = .ok .crc)
  ∧ (∀ s : State, s.busy = false → ∃ t, exec .crc s = .next t
      ∧ t.res.toNat = (crc24 ((List.range 19).map (bufByte s))).toNat
      ∧ t = { s with res := t.res, rc := .ok, pc := s.pc + 1 })

/-- 40_crc.md R113, `VAL`: `RES` is 1 when the CRC recomputed from the field values equals `x[6]`, else 0; `RC` is `OK` either way; the
cleared packet gives 0. -/
def Obligations.ValResult : Prop :=
  (∀ wd, decodeCommand ⟨0x0500, wd⟩ = .ok .val)
  ∧ (∀ s : State, s.busy = false → crc24 ((serialize s.pkt).take 19) = s.pkt.crc →
      exec .val s = .next { s with res := 1, rc := .ok, pc := s.pc + 1 })
  ∧ (∀ s : State, s.busy = false → crc24 ((serialize s.pkt).take 19) ≠ s.pkt.crc →
      exec .val s = .next { s with res := 0, rc := .ok, pc := s.pc + 1 })
  ∧ crc24 ((serialize Packet.cleared).take 19) = 0x0CFA3A

/-- 41_marshal.md R140, `GETF`: `RES` holds the field's value, zero-extended; a select of 7 or a set bit in `arg[7:3]` is illegal. -/
def Obligations.GetfResult : Prop :=
  (∀ f wd, decodeCommand ⟨0x0800 + (selectOfField f).setWidth 16, wd⟩ = .ok (.getf f))
  ∧ (∀ (arg : Byte) (wd : Word), 6 < arg.toNat → ∃ e, decodeCommand ⟨0x0800 + arg.setWidth 16, wd⟩ = .error e)
  ∧ (∀ (arg : Byte) (wd : Word) (s : State), 6 < arg.toNat → s.busy = false → presented s = some ⟨0x0800 + arg.setWidth 16, wd⟩ →
      coreTurn s = .next { s with rc := .illegal, pc := s.pc + 1 })
  ∧ (∀ (f : PktField) (s : State), s.busy = false → ∃ t, exec (.getf f) s = .next t
      ∧ t.res.toNat = fieldNat s.pkt f
      ∧ t = { s with res := t.res, rc := .ok, pc := s.pc + 1 })

/-- 41_marshal.md R141, `SETF`: the field gets the low bits of `WDATA`, as many as it has; no other field, not `BUF`, not `RES`. -/
def Obligations.SetfResult : Prop :=
  (∀ f wd, decodeCommand ⟨0x0900 + (selectOfField f).setWidth 16, wd⟩ = .ok (.setf f wd))
  ∧ (∀ (arg : Byte) (wd : Word), 6 < arg.toNat → ∃ e, decodeCommand ⟨0x0900 + arg.setWidth 16, wd⟩ = .error e)
  ∧ (∀ (arg : Byte) (wd : Word) (s : State), 6 < arg.toNat → s.busy = false → presented s = some ⟨0x0900 + arg.setWidth 16, wd⟩ →
      coreTurn s = .next { s with rc := .illegal, pc := s.pc + 1 })
  ∧ (∀ (f : PktField) (v : Word) (s : State), s.busy = false → ∃ t, exec (.setf f v) s = .next t
      ∧ fieldNat t.pkt f = v.toNat % 2 ^ fieldWidth f
      ∧ (∀ g, g ≠ f → fieldNat t.pkt g = fieldNat s.pkt g)
      ∧ t = { s with pkt := t.pkt, rc := .ok, pc := s.pc + 1 })

/-- 41_marshal.md R142, `RDB`: `RES` is the byte, zero-extended; an offset field of 22 to 31 ends with `ILLEGAL` and no other effect. -/
def Obligations.RdbResult : Prop :=
  (∀ (arg : Byte) (wd : Word), arg.toNat ≤ 21 → decodeCommand ⟨0x0A00 + arg.setWidth 16, wd⟩ = .ok (.rdb (arg.setWidth 5)))
  ∧ (∀ (arg : Byte) (wd : Word), 21 < arg.toNat → ∃ e, decodeCommand ⟨0x0A00 + arg.setWidth 16, wd⟩ = .error e)
  ∧ (∀ (arg : Byte) (wd : Word) (s : State), 21 < arg.toNat → s.busy = false → presented s = some ⟨0x0A00 + arg.setWidth 16, wd⟩ →
      coreTurn s = .next { s with rc := .illegal, pc := s.pc + 1 })
  ∧ (∀ (i : BitVec 5) (s : State), s.busy = false → i.toNat ≤ 21 → ∃ t, exec (.rdb i) s = .next t
      ∧ t.res.toNat = (bufByte s i.toNat).toNat
      ∧ t = { s with res := t.res, rc := .ok, pc := s.pc + 1 })

/-- 41_marshal.md R143, `WRB`: the byte gets `WDATA[7:0]`; no other byte, not `PKT`, not `RES`; an offset field of 22 to 31 ends with
`ILLEGAL` and nothing written. -/
def Obligations.WrbResult : Prop :=
  (∀ (arg : Byte) (wd : Word), arg.toNat ≤ 21 → decodeCommand ⟨0x0B00 + arg.setWidth 16, wd⟩ = .ok (.wrb (arg.setWidth 5) wd))
  ∧ (∀ (arg : Byte) (wd : Word), 21 < arg.toNat → ∃ e, decodeCommand ⟨0x0B00 + arg.setWidth 16, wd⟩ = .error e)
  ∧ (∀ (arg : Byte) (wd : Word) (s : State), 21 < arg.toNat → s.busy = false → presented s = some ⟨0x0B00 + arg.setWidth 16, wd⟩ →
      coreTurn s = .next { s with rc := .illegal, pc := s.pc + 1 })
  ∧ (∀ (i : BitVec 5) (v : Word) (s : State), s.busy = false → i.toNat ≤ 21 → ∃ t, exec (.wrb i v) s = .next t
      ∧ (bufByte t i.toNat).toNat = v.toNat % 256
      ∧ (∀ a, a ≠ i.toNat → bufByte t a = bufByte s a)
      ∧ t = { s with buf := t.buf, rc := .ok, pc := s.pc + 1 })

/-- The model's reading of 20_memory.md R52 (DEDUCED, log 22): `RDB` and `WRB` as instructions with an offset field of 22 to 31, which no
legal word decodes to, end with `ILLEGAL` and no other effect. -/
def Obligations.IllegalOffsetOnlySetsRc : Prop :=
  (∀ (i : BitVec 5) (s : State), s.busy = false → 21 < i.toNat →
      exec (.rdb i) s = .next { s with rc := .illegal, pc := s.pc + 1 })
  ∧ (∀ (i : BitVec 5) (v : Word) (s : State), s.busy = false → 21 < i.toNat →
      exec (.wrb i v) s = .next { s with rc := .illegal, pc := s.pc + 1 })
  ∧ (∀ (c : Command) (i : BitVec 5), decodeCommand c = .ok (.rdb i) → i.toNat ≤ 21)
  ∧ (∀ (c : Command) (i : BitVec 5) (v : Word), decodeCommand c = .ok (.wrb i v) → i.toNat ≤ 21)

/-! ### The sender -/

/-- 43_sender.md R181, `SEND`: `BUF` holds the serialized packet, one `TxWrite` of those 22 bytes and then one `TxFlush` are emitted,
`RES` = 22, `RC` = `OK`, and nothing else changes. -/
def Obligations.SendResult : Prop :=
  (∀ wd, decodeCommand ⟨0x0700, wd⟩ = .ok .send)
  ∧ (∀ s : State, s.busy = false → ∃ t, exec .send s = .next t
      ∧ bufFrame t = serialize s.pkt ∧ (serialize s.pkt).length = 22
      ∧ t = { s with buf := t.buf, out := s.out ++ [.txWrite (serialize s.pkt), .txFlush], res := 22, rc := .ok, pc := s.pc + 1 }
      ∧ (∀ a, 22 ≤ a → bufByte t a = bufByte s a))

/-- 43_sender.md R182: what `SEND` transmits does not depend on `x[6]` nor on the old content of `BUF`; and if every block handed to the
transport so far was an acceptable frame, every block is after any step of the machine: "a frame with a wrong CRC or a wrong
marker cannot be sent by the core". -/
def Obligations.OnlyAcceptableFramesAreSent : Prop :=
  (∀ (s : State) (c : Crc) (m : Memory), s.busy = false → ∃ t u, exec .send s = .next t
      ∧ exec .send { s with pkt := { s.pkt with crc := c }, buf := m } = .next u ∧ u.out = t.out ∧ bufFrame u = bufFrame t)
  ∧ (∀ s t : State, s.SentAcceptable → step s = .next t → t.SentAcceptable)

/-- 43_sender.md R185: a `SEND` right after a `SEND` transmits the same 22 bytes again, with its own flush, and the packet stays. -/
def Obligations.SendAgainSendsTheSame : Prop :=
  ∀ s : State, s.busy = false → ∃ t u, exec .send s = .next t ∧ exec .send t = .next u
    ∧ t.out = s.out ++ [.txWrite (serialize s.pkt), .txFlush]
    ∧ u.out = t.out ++ [.txWrite (serialize s.pkt), .txFlush]
    ∧ u.pkt = s.pkt ∧ bufFrame u = bufFrame t

/-! ### The frame synchronizer -/

/-- 42_framesync.md R162: a first byte that is not the marker is consumed and lost, `PKT` is cleared, `RC` = `MISS`; `BUF`, `RES` and the
output stay as they were. -/
def Obligations.RecvMiss : Prop :=
  ∀ (s : State) (b : Byte), s.busy = false → rxNext s = some b → b ≠ 0x7E →
    ∃ t, exec .recv s = .next t
      ∧ t = { s with pkt := Packet.cleared, rc := .miss, pc := s.pc + 1, rxpos := s.rxpos + 1, rxcnt := t.rxcnt }

/-- 42_framesync.md R161, R168: when the transport holds an acceptable frame, `RECV` completes with `OK`, the packet is the frame's, `BUF`
is the frame, 22 bytes are consumed, nothing is emitted and `RES` stays; the frame whose six fields are zero is one of them. -/
def Obligations.RecvAcceptsFrame : Prop :=
  (∀ wd, decodeCommand ⟨0x0600, wd⟩ = .ok .recv)
  ∧ (∀ (s : State) (frame rest : List Byte), s.busy = false → s.unread = frame ++ rest → acceptable frame = true →
      ∃ t, exec .recv s = .next t
        ∧ t.pkt = deserialize frame ∧ bufFrame t = frame
        ∧ t = { s with pkt := t.pkt, buf := t.buf, rc := .ok, pc := s.pc + 1, rxpos := s.rxpos + 22, rxcnt := t.rxcnt }
        ∧ (∀ a, 22 ≤ a → bufByte t a = bufByte s a))
  ∧ acceptable (0x7E :: (List.replicate 18 0 ++ [0x0C, 0xFA, 0x3A])) = true
  ∧ deserialize (0x7E :: (List.replicate 18 0 ++ [0x0C, 0xFA, 0x3A])) = ⟨0, 0, 0, 0, 0, 0, 0x0CFA3A⟩

/-- 42_framesync.md R163: 22 bytes that begin with the marker and are no acceptable frame are all consumed; `PKT` is cleared, `BUF` keeps
the bytes, one `DIAG_CRC_FAIL` is emitted, `RC` = `CRC_FAIL`. -/
def Obligations.RecvRejectsFrame : Prop :=
  ∀ (s : State) (frame rest : List Byte), s.busy = false → s.unread = frame ++ rest → frame.length = 22 →
    byteAt frame 0 = 0x7E → acceptable frame = false →
    ∃ t, exec .recv s = .next t
      ∧ bufFrame t = frame
      ∧ t = { s with pkt := Packet.cleared, buf := t.buf, rc := .crcFail, pc := s.pc + 1, rxpos := s.rxpos + 22, rxcnt := t.rxcnt, out := s.out ++ [.diag .crcFail] }
      ∧ (∀ a, 22 ≤ a → bufByte t a = bufByte s a)

/-- 42_framesync.md R165, R29: with fewer than 22 bytes to read, none or the first of them the marker, `RECV` does not end: `BUSY` = 1,
`PKT` cleared, the bytes so far in `BUF`, `RC`, `RES` and `pc` as they were; the core's further turns change nothing and no command
is accepted (how `exec` says so, and that a blocked turn leaves the state as it is, are the model's: logs 10 and 11). -/
def Obligations.RecvBlocks : Prop :=
  ∀ (s : State) (part : List Byte), s.busy = false → s.unread = part → part.length < 22 → (part = [] ∨ byteAt part 0 = 0x7E) →
    ∃ t, exec .recv s = .next t
      ∧ (∀ k, k < part.length → bufByte t k = byteAt part k) ∧ (∀ a, part.length ≤ a → bufByte t a = bufByte s a)
      ∧ t = { s with pkt := Packet.cleared, buf := t.buf, busy := true, rxcnt := part.length, rxpos := s.rxpos + part.length }
      ∧ coreTurn t = .next t
      ∧ (∀ i, isCommand i = true → exec i t = .refused .commandWhileBusy)

/-- 42_framesync.md R169: a `RECV` that blocked and goes on when more bytes have come reaches the state that one uninterrupted `RECV`
reaches when all the bytes are there from the start. -/
def Obligations.InterruptedRecvEqualsUninterrupted : Prop :=
  ∀ (s t : State) (more : List Byte), exec .recv s = .next t → t.busy = true →
    coreTurn { t with rx := t.rx ++ more } = exec .recv { s with rx := s.rx ++ more }

/-- 42_framesync.md R164, 20_memory.md R56: in mode `timeout` the transport may end a blocked read; `RECV` then ends with `TIMEOUT`, `PKT`
is cleared, and nothing else changes. In mode `block`, with a byte to read, or with no `RECV` in progress, it cannot
(the turns are the model's, log 5; that such a turn is empty is DEDUCED, log 14). -/
def Obligations.RecvTimeout : Prop :=
  ∀ (s : State) (rest : List Turn), s.schedule = .rxTimeout :: rest → s.Inv →
    (s.busy = true → rxNext s = none → s.rxMode = .timeout →
      step s = .next { s with pkt := Packet.cleared, busy := false, rc := .timeout, pc := s.pc + 1, schedule := rest })
    ∧ ((s.busy = false ∨ rxNext s ≠ none ∨ s.rxMode = .block) → step s = .next { s with schedule := rest })

/-- 42_framesync.md R166: how many bytes one `RECV` consumes, by its outcome: 22 with `OK` or `CRC_FAIL`, 1 with `MISS`, and `RXCNT` while
it is blocked, of which a timeout then consumes no more; never more than 22. -/
def Obligations.RecvBytesConsumed : Prop :=
  ∀ s t : State, exec .recv s = .next t →
    (t.busy = false → (t.rc = .ok ∨ t.rc = .crcFail) ∧ t.rxpos = s.rxpos + 22 ∨ t.rc = .miss ∧ t.rxpos = s.rxpos + 1)
    ∧ (t.busy = true → t.rxpos = s.rxpos + t.rxcnt ∧ t.rxcnt < 22 ∧ (rxTimeoutTurn t).rxpos = t.rxpos)

/-- 42_framesync.md R161, 10_state.md R35, the frame of `RECV` on every outcome: `RES`, the program, the received bytes and the mode stay,
the only event it may emit is one `DIAG_CRC_FAIL`, and of `BUF` it leaves every byte on a `MISS`, the bytes from offset `RXCNT` on while it is
blocked, and what lies past the frame's 22 bytes otherwise (R29: `RXCNT` has a meaning only while `BUSY` = 1). -/
def Obligations.RecvFrame : Prop :=
  ∀ s t : State, exec .recv s = .next t →
    t.res = s.res ∧ t.program = s.program ∧ t.rx = s.rx ∧ t.rxMode = s.rxMode ∧ t.schedule = s.schedule ∧ t.resetCount = s.resetCount
    ∧ (t.out = s.out ∨ t.rc = .crcFail ∧ t.out = s.out ++ [.diag .crcFail])
    ∧ (t.busy = true → ∀ a, t.rxcnt ≤ a → bufByte t a = bufByte s a)
    ∧ (t.busy = false → t.rc = .miss → ∀ a, bufByte t a = bufByte s a)
    ∧ (∀ a, 22 ≤ a → bufByte t a = bufByte s a)
    ∧ (t.pkt = Packet.cleared ∨ t.rc = .ok ∧ t.pkt = deserialize (bufFrame t))

/-- 42_framesync.md R167: no state carries from one `RECV` to the next: from two idle cores that have the same bytes to read, whatever
their packets, buffers, results and earlier history, one `RECV` each takes the same course. `RXCNT` is compared only while `BUSY` = 1 (R29). -/
def Obligations.RecvDependsOnlyOnStream : Prop :=
  ∀ s s' : State, s.busy = false → s'.busy = false → s.unread = s'.unread →
    ∃ t t', exec .recv s = .next t ∧ exec .recv s' = .next t'
      ∧ t.busy = t'.busy ∧ t.pkt = t'.pkt ∧ (t.busy = false → t.rc = t'.rc)
      ∧ t.rxpos - s.rxpos = t'.rxpos - s'.rxpos ∧ t.out.drop s.out.length = t'.out.drop s'.out.length
      ∧ (t.busy = true → t.rxcnt = t'.rxcnt ∧ ∀ k, k < t.rxcnt → bufByte t k = bufByte t' k)
      ∧ (t.busy = false → t.rc ≠ .miss → ∀ k, k < 22 → bufByte t k = bufByte t' k)

/-- 42_framesync.md R170: noise without a marker byte, then an acceptable frame: each noise byte costs one `RECV` that ends in `MISS` with
a cleared packet, and the next `RECV` yields exactly that frame. -/
def Obligations.FramingResync : Prop :=
  ∀ (s : State) (noise frame rest : List Byte), s.busy = false → (∀ b ∈ noise, b ≠ 0x7E) → acceptable frame = true →
    s.unread = noise ++ (frame ++ rest) →
    (∀ k, k < noise.length → (repeatExec .recv (k + 1) s).rc = .miss ∧ (repeatExec .recv (k + 1) s).pkt = Packet.cleared)
    ∧ (repeatExec .recv (noise.length + 1) s).rc = .ok
    ∧ (repeatExec .recv (noise.length + 1) s).pkt = deserialize frame
    ∧ (repeatExec .recv (noise.length + 1) s).unread = rest
    ∧ (repeatExec .recv (noise.length + 1) s).out = s.out

/-- 42_framesync.md R171: a frame damaged by one or two bit flips in the content after the marker, or by any change of the integrity field
alone, is received as `CRC_FAIL` with a cleared packet. -/
def Obligations.CorruptionRejected : Prop :=
  ∀ (s : State) (frame damaged rest : List Byte), s.busy = false → acceptable frame = true → s.unread = damaged ++ rest →
    ((∃ j, 8 ≤ j ∧ j < 152 ∧ damaged = flipBit j frame)
      ∨ (∃ j k, 8 ≤ j ∧ j < 152 ∧ 8 ≤ k ∧ k < 152 ∧ j ≠ k ∧ damaged = flipBit j (flipBit k frame))
      ∨ (damaged.length = 22 ∧ damaged.take 19 = frame.take 19 ∧ damaged ≠ frame)) →
    ∃ t, exec .recv s = .next t ∧ t.rc = .crcFail ∧ t.pkt = Packet.cleared ∧ t.unread = rest

/-! ### The wire values of opCode -/

/-- 30_encoding.md R86, R85 (what the model does with a row that is no command is its own choice, log 12): the five values change nothing
in the core, and any value of `opCode` passes through serialization unchanged, at offsets 9 to 12. -/
def Obligations.OpCodeIsCarried : Prop :=
  (∀ s : State, exec .opCode1000 s = .next s ∧ exec .opCode1001 s = .next s ∧ exec .opCode1002 s = .next s
      ∧ exec .opCode1003 s = .next s ∧ exec .opCode1004 s = .next s)
  ∧ (∀ p : Packet, (deserialize (serialize p)).opCode = p.opCode)
  ∧ (∀ p : Packet, p.opCode = 1000 → ((serialize p).drop 9).take 4 = [0x00, 0x00, 0x03, 0xE8])
  ∧ (∀ p : Packet, p.opCode = 1004 → ((serialize p).drop 9).take 4 = [0x00, 0x00, 0x03, 0xEC])
  ∧ (∀ s : State, ∀ rest, s.schedule = .dispatch :: rest → step s = .next { s with schedule := rest })

/-! ### The machine -/

/-- A step of the core on an idle machine runs exactly the instruction its presented command decodes to, with the turn taken off the
schedule; a dispatch turn runs the instruction `PKT.opCode` decodes to (30_encoding.md R89, 10_state.md R30, log 5, log 12). -/
def Obligations.StepRunsDecoded : Prop :=
  (∀ (s : State) (c : Command) (i : Instr), s.busy = false → s.schedule = [] → presented s = some c → decode (.command c) = .ok i →
      step s = exec i s)
  ∧ (∀ (s : State) (rest : List Turn) (c : Command) (i : Instr), s.busy = false → s.schedule = .core :: rest → presented s = some c →
      decode (.command c) = .ok i → step s = exec i { s with schedule := rest })
  ∧ (∀ (s : State) (rest : List Turn) (i : Instr), s.busy = false → s.schedule = .dispatch :: rest →
      decode (.wireOpCode s.pkt.opCode) = .ok i → step s = exec i { s with schedule := rest })

/-- An instruction placed by `withFetchWord` is what the very next step runs, from any state (log 4, log 13). -/
def Obligations.PlacedWordRunsNext : Prop :=
  (∀ (s : State) (w : Nat) (i : Instr), decodeTableWord 16 w = some i → ∃ p, p[s.pc]? = some ⟨BitVec.ofNat 16 w, BitVec.ofNat 32 (w >>> 16)⟩
      ∧ step (s.withFetchWord 16 w) = exec i { s with busy := false, program := p })
  ∧ (∀ (s : State) (w : Nat) (i : Instr), decodeTableWord 32 w = some i →
      step (s.withFetchWord 32 w) = exec i { s with busy := false, pkt := { s.pkt with opCode := BitVec.ofNat 32 w } })

/-- 10_state.md R30: a command that ends, with any code, moves `pc` on by one; a `RECV` blocked in `RxRead` leaves it; no turn of another
agent moves it but a timeout, which ends the command in progress (that a reset leaves it is the model's choice, log 4). -/
def Obligations.PcCountsEndedCommands : Prop :=
  (∀ (s t : State) (c : Command), s.busy = false → presented s = some c → coreTurn s = .next t →
      (t.busy = false → t.pc = s.pc + 1) ∧ (t.busy = true → t.pc = s.pc ∧ (rxNext t = none)))
  ∧ (∀ s t : State, s.busy = true → coreTurn s = .next t → (t.busy = false → t.pc = s.pc + 1) ∧ (t.busy = true → t.pc = s.pc))
  ∧ (∀ (s t : State) (n : Nat) (b : Byte), (takeTurn .dispatch s = .next t ∨ takeTurn (.rxByte b) s = .next t ∨ takeTurn .reset s = .next t
      ∨ takeTurn (.resetDuring n) s = .next t) → t.pc = s.pc)

/-- 10_state.md R29, 70_reset_and_hazards.md R228: while `BUSY` = 1 no command is accepted (each of the eleven is refused by name, which is the
model's way to say it, log 10), and the core's turn does not look at the program. -/
def Obligations.BusyAcceptsNoCommand : Prop :=
  (∀ (i : Instr) (s : State), s.busy = true → isCommand i = true → exec i s = .refused .commandWhileBusy)
  ∧ (∀ (s t : State) (p : List Command), s.busy = true → coreTurn s = .next t →
      coreTurn { s with program := p } = .next { t with program := p })

/-- The node "must remain live across malformed input indefinitely" (70_reset_and_hazards.md R236): every step, from every state, gives a
next state; no input stops the machine (an idle core with nothing presented and a blocked `RECV` step to the same state: the model's
choice, log 11). -/
def Obligations.EveryStepMoves : Prop :=
  ∀ s : State, ∃ t, step s = .next t

/-- The invariant of the state (`State.Inv`; 10_state.md R29, 20_memory.md R52, R55) is kept by every step (the canonical form of `BUF` is
the model's, log 1). -/
def Obligations.StepKeepsInv : Prop :=
  ∀ s t : State, s.Inv → step s = .next t → t.Inv

/-- The invariant holds right after reset, and nothing has been sent (what the agents around the core hold then is the model's choice,
logs 4, 7, 8). -/
def Obligations.ResetHasInv : Prop :=
  State.reset.Inv ∧ State.reset.SentAcceptable

/-- What reset leaves (10_state.md R34); the bytes of `BUF` are free values, which the model says by listing none (log 1). -/
def Obligations.ResetValues : Prop :=
  State.reset.pkt = ⟨0, 0, 0, 0, 0, 0, 0⟩ ∧ rcBits State.reset.rc = 0 ∧ State.reset.res = 0 ∧ State.reset.busy = false
  ∧ (∀ a, Memory.read? State.reset.buf a = none)

/-- 70_reset_and_hazards.md R220, R221: a reset turn, from every state, also in the middle of a `RECV`, puts the core at its reset values
and leaves the transport, the emitted events and the program as they are (`RXCNT` = 0, the count of resets and the kept index are the
model's choice, logs 2, 3, 4). -/
def Obligations.ResetTurnResult : Prop :=
  ∀ (s : State) (rest : List Turn), s.schedule = .reset :: rest →
    step s = .next { s with pkt := ⟨0, 0, 0, 0, 0, 0, 0⟩, buf := [], rc := .ok, res := 0, busy := false, rxcnt := 0, resetCount := s.resetCount + 1, schedule := rest }

/-- 70_reset_and_hazards.md R221: a `SEND` struck by reset before its `TxWrite` sends nothing, one struck between `TxWrite` and `TxFlush` has
written but not flushed; a `RECV` struck after `n` reads has lost those bytes, and every byte not read is still there (the points where reset
can strike are the model's, DEDUCED, log 15). -/
def Obligations.ResetInMidCommand : Prop :=
  (∀ (s t : State) (c : Command) (rest : List Turn), s.busy = false → presented s = some c → decode (.command c) = .ok .send →
      (s.schedule = .resetDuring 0 :: rest → step s = .next t → t.out = s.out)
      ∧ (s.schedule = .resetDuring 1 :: rest → step s = .next t → t.out = s.out ++ [.txWrite (serialize s.pkt)])
      ∧ (s.schedule = .resetDuring 2 :: rest → step s = .next t → t.out = s.out ++ [.txWrite (serialize s.pkt), .txFlush]))
  ∧ (∀ (s t : State) (c : Command) (n : Nat) (frame more : List Byte) (rest : List Turn), s.busy = false → presented s = some c →
      decode (.command c) = .ok .recv → s.schedule = .resetDuring n :: rest → s.unread = frame ++ more → frame.length = 22 →
      byteAt frame 0 = 0x7E → n ≤ 22 → step s = .next t →
      t.unread = s.unread.drop n ∧ t.out = s.out ∧ t.busy = false ∧ t.pkt = Packet.cleared ∧ t.rc = .ok ∧ t.res = 0)

/-- 20_memory.md R55, R60: no step takes back an event, a received byte or a read; the mode and the program are fixed; one step consumes at
most 22 bytes. -/
def Obligations.HistoryOnlyGrows : Prop :=
  ∀ s t : State, step s = .next t →
    (∃ l, t.out = s.out ++ l) ∧ (∃ l, t.rx = s.rx ++ l) ∧ s.rxpos ≤ t.rxpos ∧ t.rxpos ≤ s.rxpos + 22
    ∧ t.rxMode = s.rxMode ∧ t.program = s.program ∧ s.pc ≤ t.pc ∧ t.pc ≤ s.pc + 1

/-- 10_state.md R27: `RES` is written by exactly `SER`, `SEND`, `CRC`, `VAL`, `GETF` and `RDB`; every other command, and every command that
ends with `ILLEGAL`, leaves it unchanged. -/
def Obligations.OnlySixCommandsWriteRes : Prop :=
  (∀ (i : Instr) (s t : State), exec i s = .next t → (writesRes i = false ∨ t.rc = .illegal ∧ isCommand i = true) → t.res = s.res)
  ∧ (∀ (i : Instr), writesRes i = true → i.wf = true → ∃ s t, exec i s = .next t ∧ t.res ≠ s.res)
  ∧ (∀ (s : State) (c : Command), s.busy = false → presented s = some c → c.cw ∉ legalWords →
      ∃ t, coreTurn s = .next t ∧ t.res = s.res)

/-- 60_exceptions.md R190, R193: the codes' values, that each differs, and that a command that ends reports `OK`, but for `RECV` (`MISS` or
`CRC_FAIL` also) and an operand that makes the word illegal (`ILLEGAL`). -/
def Obligations.ResultCodes : Prop :=
  rcBits .ok = 0 ∧ rcBits .miss = 1 ∧ rcBits .crcFail = 2 ∧ rcBits .timeout = 3 ∧ rcBits .illegal = 4
  ∧ (∀ c, (rcBits c).toNat ≤ 4)
  ∧ (∀ (i : Instr) (s t : State), isCommand i = true → exec i s = .next t → t.busy = false →
      (i.wf = false ∧ t.rc = .illegal) ∨ (i.wf = true ∧ i ≠ .recv ∧ t.rc = .ok)
      ∨ (i = .recv ∧ (t.rc = .ok ∨ t.rc = .miss ∨ t.rc = .crcFail)))

/-- 60_exceptions.md R194: no error is sticky: after any code, every instruction behaves as it would after `OK`, but for the value of `RC`
it may leave in place. -/
def Obligations.NoCodeIsSticky : Prop :=
  ∀ (i : Instr) (s t : State) (code : ResultCode), exec i s = .next t → t.busy = false → isCommand i = true →
    exec i { s with rc := code } = .next t

/-- 60_exceptions.md R196, 20_memory.md R55: a byte that arrives waits in the transport and disturbs nothing in the core (that an
arrival is a turn of the schedule is the model's, log 5). -/
def Obligations.ArrivalDisturbsNothing : Prop :=
  ∀ (s : State) (b : Byte) (rest : List Turn), s.schedule = .rxByte b :: rest →
    step s = .next { s with rx := s.rx ++ [b], schedule := rest }
end

