-- ==== Sys2Proof/Laws/State.lean ====
section
/-! SUPPORT. For each named update of the state, what each field is afterwards: true by definition, and used by simp so that no proof
unfolds a record update. -/

namespace Sys2Proof.Machine

@[simp] theorem writeBuf_pkt (a : Nat) (v : Byte) (s : State) : (writeBuf a v s).pkt = s.pkt := rfl
@[simp] theorem writeBuf_buf (a : Nat) (v : Byte) (s : State) : (writeBuf a v s).buf = Memory.write s.buf a v := rfl
@[simp] theorem writeBuf_rc (a : Nat) (v : Byte) (s : State) : (writeBuf a v s).rc = s.rc := rfl
@[simp] theorem writeBuf_res (a : Nat) (v : Byte) (s : State) : (writeBuf a v s).res = s.res := rfl
@[simp] theorem writeBuf_busy (a : Nat) (v : Byte) (s : State) : (writeBuf a v s).busy = s.busy := rfl
@[simp] theorem writeBuf_rxcnt (a : Nat) (v : Byte) (s : State) : (writeBuf a v s).rxcnt = s.rxcnt := rfl
@[simp] theorem writeBuf_program (a : Nat) (v : Byte) (s : State) : (writeBuf a v s).program = s.program := rfl
@[simp] theorem writeBuf_pc (a : Nat) (v : Byte) (s : State) : (writeBuf a v s).pc = s.pc := rfl
@[simp] theorem writeBuf_rx (a : Nat) (v : Byte) (s : State) : (writeBuf a v s).rx = s.rx := rfl
@[simp] theorem writeBuf_rxpos (a : Nat) (v : Byte) (s : State) : (writeBuf a v s).rxpos = s.rxpos := rfl
@[simp] theorem writeBuf_rxMode (a : Nat) (v : Byte) (s : State) : (writeBuf a v s).rxMode = s.rxMode := rfl
@[simp] theorem writeBuf_out (a : Nat) (v : Byte) (s : State) : (writeBuf a v s).out = s.out := rfl
@[simp] theorem writeBuf_resetCount (a : Nat) (v : Byte) (s : State) : (writeBuf a v s).resetCount = s.resetCount := rfl
@[simp] theorem writeBuf_schedule (a : Nat) (v : Byte) (s : State) : (writeBuf a v s).schedule = s.schedule := rfl

@[simp] theorem writeFrame_pkt (l : List Byte) (s : State) : (writeFrame l s).pkt = s.pkt := rfl
@[simp] theorem writeFrame_buf (l : List Byte) (s : State) : (writeFrame l s).buf = Memory.writeAll s.buf 0 l := rfl
@[simp] theorem writeFrame_rc (l : List Byte) (s : State) : (writeFrame l s).rc = s.rc := rfl
@[simp] theorem writeFrame_res (l : List Byte) (s : State) : (writeFrame l s).res = s.res := rfl
@[simp] theorem writeFrame_busy (l : List Byte) (s : State) : (writeFrame l s).busy = s.busy := rfl
@[simp] theorem writeFrame_rxcnt (l : List Byte) (s : State) : (writeFrame l s).rxcnt = s.rxcnt := rfl
@[simp] theorem writeFrame_program (l : List Byte) (s : State) : (writeFrame l s).program = s.program := rfl
@[simp] theorem writeFrame_pc (l : List Byte) (s : State) : (writeFrame l s).pc = s.pc := rfl
@[simp] theorem writeFrame_rx (l : List Byte) (s : State) : (writeFrame l s).rx = s.rx := rfl
@[simp] theorem writeFrame_rxpos (l : List Byte) (s : State) : (writeFrame l s).rxpos = s.rxpos := rfl
@[simp] theorem writeFrame_rxMode (l : List Byte) (s : State) : (writeFrame l s).rxMode = s.rxMode := rfl
@[simp] theorem writeFrame_out (l : List Byte) (s : State) : (writeFrame l s).out = s.out := rfl
@[simp] theorem writeFrame_resetCount (l : List Byte) (s : State) : (writeFrame l s).resetCount = s.resetCount := rfl
@[simp] theorem writeFrame_schedule (l : List Byte) (s : State) : (writeFrame l s).schedule = s.schedule := rfl

@[simp] theorem setPkt_pkt (p : Packet) (s : State) : (setPkt p s).pkt = p := rfl
@[simp] theorem setPkt_buf (p : Packet) (s : State) : (setPkt p s).buf = s.buf := rfl
@[simp] theorem setPkt_rc (p : Packet) (s : State) : (setPkt p s).rc = s.rc := rfl
@[simp] theorem setPkt_res (p : Packet) (s : State) : (setPkt p s).res = s.res := rfl
@[simp] theorem setPkt_busy (p : Packet) (s : State) : (setPkt p s).busy = s.busy := rfl
@[simp] theorem setPkt_rxcnt (p : Packet) (s : State) : (setPkt p s).rxcnt = s.rxcnt := rfl
@[simp] theorem setPkt_program (p : Packet) (s : State) : (setPkt p s).program = s.program := rfl
@[simp] theorem setPkt_pc (p : Packet) (s : State) : (setPkt p s).pc = s.pc := rfl
@[simp] theorem setPkt_rx (p : Packet) (s : State) : (setPkt p s).rx = s.rx := rfl
@[simp] theorem setPkt_rxpos (p : Packet) (s : State) : (setPkt p s).rxpos = s.rxpos := rfl
@[simp] theorem setPkt_rxMode (p : Packet) (s : State) : (setPkt p s).rxMode = s.rxMode := rfl
@[simp] theorem setPkt_out (p : Packet) (s : State) : (setPkt p s).out = s.out := rfl
@[simp] theorem setPkt_resetCount (p : Packet) (s : State) : (setPkt p s).resetCount = s.resetCount := rfl
@[simp] theorem setPkt_schedule (p : Packet) (s : State) : (setPkt p s).schedule = s.schedule := rfl

@[simp] theorem setRes_pkt (v : Word) (s : State) : (setRes v s).pkt = s.pkt := rfl
@[simp] theorem setRes_buf (v : Word) (s : State) : (setRes v s).buf = s.buf := rfl
@[simp] theorem setRes_rc (v : Word) (s : State) : (setRes v s).rc = s.rc := rfl
@[simp] theorem setRes_res (v : Word) (s : State) : (setRes v s).res = v := rfl
@[simp] theorem setRes_busy (v : Word) (s : State) : (setRes v s).busy = s.busy := rfl
@[simp] theorem setRes_rxcnt (v : Word) (s : State) : (setRes v s).rxcnt = s.rxcnt := rfl
@[simp] theorem setRes_program (v : Word) (s : State) : (setRes v s).program = s.program := rfl
@[simp] theorem setRes_pc (v : Word) (s : State) : (setRes v s).pc = s.pc := rfl
@[simp] theorem setRes_rx (v : Word) (s : State) : (setRes v s).rx = s.rx := rfl
@[simp] theorem setRes_rxpos (v : Word) (s : State) : (setRes v s).rxpos = s.rxpos := rfl
@[simp] theorem setRes_rxMode (v : Word) (s : State) : (setRes v s).rxMode = s.rxMode := rfl
@[simp] theorem setRes_out (v : Word) (s : State) : (setRes v s).out = s.out := rfl
@[simp] theorem setRes_resetCount (v : Word) (s : State) : (setRes v s).resetCount = s.resetCount := rfl
@[simp] theorem setRes_schedule (v : Word) (s : State) : (setRes v s).schedule = s.schedule := rfl

@[simp] theorem setRxcnt_pkt (n : Nat) (s : State) : (setRxcnt n s).pkt = s.pkt := rfl
@[simp] theorem setRxcnt_buf (n : Nat) (s : State) : (setRxcnt n s).buf = s.buf := rfl
@[simp] theorem setRxcnt_rc (n : Nat) (s : State) : (setRxcnt n s).rc = s.rc := rfl
@[simp] theorem setRxcnt_res (n : Nat) (s : State) : (setRxcnt n s).res = s.res := rfl
@[simp] theorem setRxcnt_busy (n : Nat) (s : State) : (setRxcnt n s).busy = s.busy := rfl
@[simp] theorem setRxcnt_rxcnt (n : Nat) (s : State) : (setRxcnt n s).rxcnt = n := rfl
@[simp] theorem setRxcnt_program (n : Nat) (s : State) : (setRxcnt n s).program = s.program := rfl
@[simp] theorem setRxcnt_pc (n : Nat) (s : State) : (setRxcnt n s).pc = s.pc := rfl
@[simp] theorem setRxcnt_rx (n : Nat) (s : State) : (setRxcnt n s).rx = s.rx := rfl
@[simp] theorem setRxcnt_rxpos (n : Nat) (s : State) : (setRxcnt n s).rxpos = s.rxpos := rfl
@[simp] theorem setRxcnt_rxMode (n : Nat) (s : State) : (setRxcnt n s).rxMode = s.rxMode := rfl
@[simp] theorem setRxcnt_out (n : Nat) (s : State) : (setRxcnt n s).out = s.out := rfl
@[simp] theorem setRxcnt_resetCount (n : Nat) (s : State) : (setRxcnt n s).resetCount = s.resetCount := rfl
@[simp] theorem setRxcnt_schedule (n : Nat) (s : State) : (setRxcnt n s).schedule = s.schedule := rfl

@[simp] theorem setBusy_pkt (s : State) : (setBusy s).pkt = s.pkt := rfl
@[simp] theorem setBusy_buf (s : State) : (setBusy s).buf = s.buf := rfl
@[simp] theorem setBusy_rc (s : State) : (setBusy s).rc = s.rc := rfl
@[simp] theorem setBusy_res (s : State) : (setBusy s).res = s.res := rfl
@[simp] theorem setBusy_busy (s : State) : (setBusy s).busy = true := rfl
@[simp] theorem setBusy_rxcnt (s : State) : (setBusy s).rxcnt = 0 := rfl
@[simp] theorem setBusy_program (s : State) : (setBusy s).program = s.program := rfl
@[simp] theorem setBusy_pc (s : State) : (setBusy s).pc = s.pc := rfl
@[simp] theorem setBusy_rx (s : State) : (setBusy s).rx = s.rx := rfl
@[simp] theorem setBusy_rxpos (s : State) : (setBusy s).rxpos = s.rxpos := rfl
@[simp] theorem setBusy_rxMode (s : State) : (setBusy s).rxMode = s.rxMode := rfl
@[simp] theorem setBusy_out (s : State) : (setBusy s).out = s.out := rfl
@[simp] theorem setBusy_resetCount (s : State) : (setBusy s).resetCount = s.resetCount := rfl
@[simp] theorem setBusy_schedule (s : State) : (setBusy s).schedule = s.schedule := rfl

@[simp] theorem emit_pkt (e : OutEvent) (s : State) : (emit e s).pkt = s.pkt := rfl
@[simp] theorem emit_buf (e : OutEvent) (s : State) : (emit e s).buf = s.buf := rfl
@[simp] theorem emit_rc (e : OutEvent) (s : State) : (emit e s).rc = s.rc := rfl
@[simp] theorem emit_res (e : OutEvent) (s : State) : (emit e s).res = s.res := rfl
@[simp] theorem emit_busy (e : OutEvent) (s : State) : (emit e s).busy = s.busy := rfl
@[simp] theorem emit_rxcnt (e : OutEvent) (s : State) : (emit e s).rxcnt = s.rxcnt := rfl
@[simp] theorem emit_program (e : OutEvent) (s : State) : (emit e s).program = s.program := rfl
@[simp] theorem emit_pc (e : OutEvent) (s : State) : (emit e s).pc = s.pc := rfl
@[simp] theorem emit_rx (e : OutEvent) (s : State) : (emit e s).rx = s.rx := rfl
@[simp] theorem emit_rxpos (e : OutEvent) (s : State) : (emit e s).rxpos = s.rxpos := rfl
@[simp] theorem emit_rxMode (e : OutEvent) (s : State) : (emit e s).rxMode = s.rxMode := rfl
@[simp] theorem emit_out (e : OutEvent) (s : State) : (emit e s).out = s.out ++ [e] := rfl
@[simp] theorem emit_resetCount (e : OutEvent) (s : State) : (emit e s).resetCount = s.resetCount := rfl
@[simp] theorem emit_schedule (e : OutEvent) (s : State) : (emit e s).schedule = s.schedule := rfl

@[simp] theorem endCommand_pkt (c : ResultCode) (s : State) : (endCommand c s).pkt = s.pkt := rfl
@[simp] theorem endCommand_buf (c : ResultCode) (s : State) : (endCommand c s).buf = s.buf := rfl
@[simp] theorem endCommand_rc (c : ResultCode) (s : State) : (endCommand c s).rc = c := rfl
@[simp] theorem endCommand_res (c : ResultCode) (s : State) : (endCommand c s).res = s.res := rfl
@[simp] theorem endCommand_busy (c : ResultCode) (s : State) : (endCommand c s).busy = false := rfl
@[simp] theorem endCommand_rxcnt (c : ResultCode) (s : State) : (endCommand c s).rxcnt = s.rxcnt := rfl
@[simp] theorem endCommand_program (c : ResultCode) (s : State) : (endCommand c s).program = s.program := rfl
@[simp] theorem endCommand_pc (c : ResultCode) (s : State) : (endCommand c s).pc = s.pc + 1 := rfl
@[simp] theorem endCommand_rx (c : ResultCode) (s : State) : (endCommand c s).rx = s.rx := rfl
@[simp] theorem endCommand_rxpos (c : ResultCode) (s : State) : (endCommand c s).rxpos = s.rxpos := rfl
@[simp] theorem endCommand_rxMode (c : ResultCode) (s : State) : (endCommand c s).rxMode = s.rxMode := rfl
@[simp] theorem endCommand_out (c : ResultCode) (s : State) : (endCommand c s).out = s.out := rfl
@[simp] theorem endCommand_resetCount (c : ResultCode) (s : State) : (endCommand c s).resetCount = s.resetCount := rfl
@[simp] theorem endCommand_schedule (c : ResultCode) (s : State) : (endCommand c s).schedule = s.schedule := rfl

@[simp] theorem raise_pkt (c : ResultCode) (s : State) : (raise c s).pkt = s.pkt := rfl
@[simp] theorem raise_buf (c : ResultCode) (s : State) : (raise c s).buf = s.buf := rfl
@[simp] theorem raise_rc (c : ResultCode) (s : State) : (raise c s).rc = c := rfl
@[simp] theorem raise_res (c : ResultCode) (s : State) : (raise c s).res = s.res := rfl
@[simp] theorem raise_busy (c : ResultCode) (s : State) : (raise c s).busy = false := rfl
@[simp] theorem raise_rxcnt (c : ResultCode) (s : State) : (raise c s).rxcnt = s.rxcnt := rfl
@[simp] theorem raise_program (c : ResultCode) (s : State) : (raise c s).program = s.program := rfl
@[simp] theorem raise_pc (c : ResultCode) (s : State) : (raise c s).pc = s.pc + 1 := rfl
@[simp] theorem raise_rx (c : ResultCode) (s : State) : (raise c s).rx = s.rx := rfl
@[simp] theorem raise_rxpos (c : ResultCode) (s : State) : (raise c s).rxpos = s.rxpos := rfl
@[simp] theorem raise_rxMode (c : ResultCode) (s : State) : (raise c s).rxMode = s.rxMode := rfl
@[simp] theorem raise_out (c : ResultCode) (s : State) : (raise c s).out = s.out := rfl
@[simp] theorem raise_resetCount (c : ResultCode) (s : State) : (raise c s).resetCount = s.resetCount := rfl
@[simp] theorem raise_schedule (c : ResultCode) (s : State) : (raise c s).schedule = s.schedule := rfl

@[simp] theorem endOk_pkt (s : State) : (endOk s).pkt = s.pkt := rfl
@[simp] theorem endOk_buf (s : State) : (endOk s).buf = s.buf := rfl
@[simp] theorem endOk_rc (s : State) : (endOk s).rc = .ok := rfl
@[simp] theorem endOk_res (s : State) : (endOk s).res = s.res := rfl
@[simp] theorem endOk_busy (s : State) : (endOk s).busy = false := rfl
@[simp] theorem endOk_rxcnt (s : State) : (endOk s).rxcnt = s.rxcnt := rfl
@[simp] theorem endOk_program (s : State) : (endOk s).program = s.program := rfl
@[simp] theorem endOk_pc (s : State) : (endOk s).pc = s.pc + 1 := rfl
@[simp] theorem endOk_rx (s : State) : (endOk s).rx = s.rx := rfl
@[simp] theorem endOk_rxpos (s : State) : (endOk s).rxpos = s.rxpos := rfl
@[simp] theorem endOk_rxMode (s : State) : (endOk s).rxMode = s.rxMode := rfl
@[simp] theorem endOk_out (s : State) : (endOk s).out = s.out := rfl
@[simp] theorem endOk_resetCount (s : State) : (endOk s).resetCount = s.resetCount := rfl
@[simp] theorem endOk_schedule (s : State) : (endOk s).schedule = s.schedule := rfl

@[simp] theorem illegalCommand_pkt (s : State) : (illegalCommand s).pkt = s.pkt := rfl
@[simp] theorem illegalCommand_buf (s : State) : (illegalCommand s).buf = s.buf := rfl
@[simp] theorem illegalCommand_rc (s : State) : (illegalCommand s).rc = .illegal := rfl
@[simp] theorem illegalCommand_res (s : State) : (illegalCommand s).res = s.res := rfl
@[simp] theorem illegalCommand_busy (s : State) : (illegalCommand s).busy = false := rfl
@[simp] theorem illegalCommand_rxcnt (s : State) : (illegalCommand s).rxcnt = s.rxcnt := rfl
@[simp] theorem illegalCommand_program (s : State) : (illegalCommand s).program = s.program := rfl
@[simp] theorem illegalCommand_pc (s : State) : (illegalCommand s).pc = s.pc + 1 := rfl
@[simp] theorem illegalCommand_rx (s : State) : (illegalCommand s).rx = s.rx := rfl
@[simp] theorem illegalCommand_rxpos (s : State) : (illegalCommand s).rxpos = s.rxpos := rfl
@[simp] theorem illegalCommand_rxMode (s : State) : (illegalCommand s).rxMode = s.rxMode := rfl
@[simp] theorem illegalCommand_out (s : State) : (illegalCommand s).out = s.out := rfl
@[simp] theorem illegalCommand_resetCount (s : State) : (illegalCommand s).resetCount = s.resetCount := rfl
@[simp] theorem illegalCommand_schedule (s : State) : (illegalCommand s).schedule = s.schedule := rfl

@[simp] theorem rxConsume_pkt (s : State) : (rxConsume s).pkt = s.pkt := rfl
@[simp] theorem rxConsume_buf (s : State) : (rxConsume s).buf = s.buf := rfl
@[simp] theorem rxConsume_rc (s : State) : (rxConsume s).rc = s.rc := rfl
@[simp] theorem rxConsume_res (s : State) : (rxConsume s).res = s.res := rfl
@[simp] theorem rxConsume_busy (s : State) : (rxConsume s).busy = s.busy := rfl
@[simp] theorem rxConsume_rxcnt (s : State) : (rxConsume s).rxcnt = s.rxcnt := rfl
@[simp] theorem rxConsume_program (s : State) : (rxConsume s).program = s.program := rfl
@[simp] theorem rxConsume_pc (s : State) : (rxConsume s).pc = s.pc := rfl
@[simp] theorem rxConsume_rx (s : State) : (rxConsume s).rx = s.rx := rfl
@[simp] theorem rxConsume_rxpos (s : State) : (rxConsume s).rxpos = s.rxpos + 1 := rfl
@[simp] theorem rxConsume_rxMode (s : State) : (rxConsume s).rxMode = s.rxMode := rfl
@[simp] theorem rxConsume_out (s : State) : (rxConsume s).out = s.out := rfl
@[simp] theorem rxConsume_resetCount (s : State) : (rxConsume s).resetCount = s.resetCount := rfl
@[simp] theorem rxConsume_schedule (s : State) : (rxConsume s).schedule = s.schedule := rfl

@[simp] theorem deliver_pkt (b : Byte) (s : State) : (deliver b s).pkt = s.pkt := rfl
@[simp] theorem deliver_buf (b : Byte) (s : State) : (deliver b s).buf = s.buf := rfl
@[simp] theorem deliver_rc (b : Byte) (s : State) : (deliver b s).rc = s.rc := rfl
@[simp] theorem deliver_res (b : Byte) (s : State) : (deliver b s).res = s.res := rfl
@[simp] theorem deliver_busy (b : Byte) (s : State) : (deliver b s).busy = s.busy := rfl
@[simp] theorem deliver_rxcnt (b : Byte) (s : State) : (deliver b s).rxcnt = s.rxcnt := rfl
@[simp] theorem deliver_program (b : Byte) (s : State) : (deliver b s).program = s.program := rfl
@[simp] theorem deliver_pc (b : Byte) (s : State) : (deliver b s).pc = s.pc := rfl
@[simp] theorem deliver_rx (b : Byte) (s : State) : (deliver b s).rx = s.rx ++ [b] := rfl
@[simp] theorem deliver_rxpos (b : Byte) (s : State) : (deliver b s).rxpos = s.rxpos := rfl
@[simp] theorem deliver_rxMode (b : Byte) (s : State) : (deliver b s).rxMode = s.rxMode := rfl
@[simp] theorem deliver_out (b : Byte) (s : State) : (deliver b s).out = s.out := rfl
@[simp] theorem deliver_resetCount (b : Byte) (s : State) : (deliver b s).resetCount = s.resetCount := rfl
@[simp] theorem deliver_schedule (b : Byte) (s : State) : (deliver b s).schedule = s.schedule := rfl

@[simp] theorem resetCore_pkt (s : State) : (resetCore s).pkt = Packet.cleared := rfl
@[simp] theorem resetCore_buf (s : State) : (resetCore s).buf = [] := rfl
@[simp] theorem resetCore_rc (s : State) : (resetCore s).rc = .ok := rfl
@[simp] theorem resetCore_res (s : State) : (resetCore s).res = 0 := rfl
@[simp] theorem resetCore_busy (s : State) : (resetCore s).busy = false := rfl
@[simp] theorem resetCore_rxcnt (s : State) : (resetCore s).rxcnt = 0 := rfl
@[simp] theorem resetCore_program (s : State) : (resetCore s).program = s.program := rfl
@[simp] theorem resetCore_pc (s : State) : (resetCore s).pc = s.pc := rfl
@[simp] theorem resetCore_rx (s : State) : (resetCore s).rx = s.rx := rfl
@[simp] theorem resetCore_rxpos (s : State) : (resetCore s).rxpos = s.rxpos := rfl
@[simp] theorem resetCore_rxMode (s : State) : (resetCore s).rxMode = s.rxMode := rfl
@[simp] theorem resetCore_out (s : State) : (resetCore s).out = s.out := rfl
@[simp] theorem resetCore_resetCount (s : State) : (resetCore s).resetCount = s.resetCount + 1 := rfl
@[simp] theorem resetCore_schedule (s : State) : (resetCore s).schedule = s.schedule := rfl

@[simp] theorem recvStart_pkt (s : State) : (recvStart s).pkt = Packet.cleared := rfl
@[simp] theorem recvStart_buf (s : State) : (recvStart s).buf = s.buf := rfl
@[simp] theorem recvStart_rc (s : State) : (recvStart s).rc = s.rc := rfl
@[simp] theorem recvStart_res (s : State) : (recvStart s).res = s.res := rfl
@[simp] theorem recvStart_busy (s : State) : (recvStart s).busy = true := rfl
@[simp] theorem recvStart_rxcnt (s : State) : (recvStart s).rxcnt = 0 := rfl
@[simp] theorem recvStart_program (s : State) : (recvStart s).program = s.program := rfl
@[simp] theorem recvStart_pc (s : State) : (recvStart s).pc = s.pc := rfl
@[simp] theorem recvStart_rx (s : State) : (recvStart s).rx = s.rx := rfl
@[simp] theorem recvStart_rxpos (s : State) : (recvStart s).rxpos = s.rxpos := rfl
@[simp] theorem recvStart_rxMode (s : State) : (recvStart s).rxMode = s.rxMode := rfl
@[simp] theorem recvStart_out (s : State) : (recvStart s).out = s.out := rfl
@[simp] theorem recvStart_resetCount (s : State) : (recvStart s).resetCount = s.resetCount := rfl
@[simp] theorem recvStart_schedule (s : State) : (recvStart s).schedule = s.schedule := rfl

@[simp] theorem recvStore_pkt (b : Byte) (s : State) : (recvStore b s).pkt = s.pkt := rfl
@[simp] theorem recvStore_buf (b : Byte) (s : State) : (recvStore b s).buf = Memory.write s.buf s.rxcnt b := rfl
@[simp] theorem recvStore_rc (b : Byte) (s : State) : (recvStore b s).rc = s.rc := rfl
@[simp] theorem recvStore_res (b : Byte) (s : State) : (recvStore b s).res = s.res := rfl
@[simp] theorem recvStore_busy (b : Byte) (s : State) : (recvStore b s).busy = s.busy := rfl
@[simp] theorem recvStore_rxcnt (b : Byte) (s : State) : (recvStore b s).rxcnt = s.rxcnt + 1 := rfl
@[simp] theorem recvStore_program (b : Byte) (s : State) : (recvStore b s).program = s.program := rfl
@[simp] theorem recvStore_pc (b : Byte) (s : State) : (recvStore b s).pc = s.pc := rfl
@[simp] theorem recvStore_rx (b : Byte) (s : State) : (recvStore b s).rx = s.rx := rfl
@[simp] theorem recvStore_rxpos (b : Byte) (s : State) : (recvStore b s).rxpos = s.rxpos := rfl
@[simp] theorem recvStore_rxMode (b : Byte) (s : State) : (recvStore b s).rxMode = s.rxMode := rfl
@[simp] theorem recvStore_out (b : Byte) (s : State) : (recvStore b s).out = s.out := rfl
@[simp] theorem recvStore_resetCount (b : Byte) (s : State) : (recvStore b s).resetCount = s.resetCount := rfl
@[simp] theorem recvStore_schedule (b : Byte) (s : State) : (recvStore b s).schedule = s.schedule := rfl

@[simp] theorem serializeToBuf_pkt (s : State) : (serializeToBuf s).pkt = s.pkt := writeFrame_pkt _ s
@[simp] theorem serializeToBuf_buf (s : State) : (serializeToBuf s).buf = Memory.writeAll s.buf 0 (serialize s.pkt) := writeFrame_buf _ s
@[simp] theorem serializeToBuf_rc (s : State) : (serializeToBuf s).rc = s.rc := writeFrame_rc _ s
@[simp] theorem serializeToBuf_res (s : State) : (serializeToBuf s).res = s.res := writeFrame_res _ s
@[simp] theorem serializeToBuf_busy (s : State) : (serializeToBuf s).busy = s.busy := writeFrame_busy _ s
@[simp] theorem serializeToBuf_rxcnt (s : State) : (serializeToBuf s).rxcnt = s.rxcnt := writeFrame_rxcnt _ s
@[simp] theorem serializeToBuf_program (s : State) : (serializeToBuf s).program = s.program := writeFrame_program _ s
@[simp] theorem serializeToBuf_pc (s : State) : (serializeToBuf s).pc = s.pc := writeFrame_pc _ s
@[simp] theorem serializeToBuf_rx (s : State) : (serializeToBuf s).rx = s.rx := writeFrame_rx _ s
@[simp] theorem serializeToBuf_rxpos (s : State) : (serializeToBuf s).rxpos = s.rxpos := writeFrame_rxpos _ s
@[simp] theorem serializeToBuf_rxMode (s : State) : (serializeToBuf s).rxMode = s.rxMode := writeFrame_rxMode _ s
@[simp] theorem serializeToBuf_out (s : State) : (serializeToBuf s).out = s.out := writeFrame_out _ s
@[simp] theorem serializeToBuf_resetCount (s : State) : (serializeToBuf s).resetCount = s.resetCount := writeFrame_resetCount _ s
@[simp] theorem serializeToBuf_schedule (s : State) : (serializeToBuf s).schedule = s.schedule := writeFrame_schedule _ s

@[simp] theorem transmitBuf_pkt (s : State) : (transmitBuf s).pkt = s.pkt := rfl
@[simp] theorem transmitBuf_buf (s : State) : (transmitBuf s).buf = s.buf := rfl
@[simp] theorem transmitBuf_rc (s : State) : (transmitBuf s).rc = s.rc := rfl
@[simp] theorem transmitBuf_res (s : State) : (transmitBuf s).res = s.res := rfl
@[simp] theorem transmitBuf_busy (s : State) : (transmitBuf s).busy = s.busy := rfl
@[simp] theorem transmitBuf_rxcnt (s : State) : (transmitBuf s).rxcnt = s.rxcnt := rfl
@[simp] theorem transmitBuf_program (s : State) : (transmitBuf s).program = s.program := rfl
@[simp] theorem transmitBuf_pc (s : State) : (transmitBuf s).pc = s.pc := rfl
@[simp] theorem transmitBuf_rx (s : State) : (transmitBuf s).rx = s.rx := rfl
@[simp] theorem transmitBuf_rxpos (s : State) : (transmitBuf s).rxpos = s.rxpos := rfl
@[simp] theorem transmitBuf_rxMode (s : State) : (transmitBuf s).rxMode = s.rxMode := rfl
@[simp] theorem transmitBuf_out (s : State) : (transmitBuf s).out = s.out ++ [.txWrite (bufFrame s)] := rfl
@[simp] theorem transmitBuf_resetCount (s : State) : (transmitBuf s).resetCount = s.resetCount := rfl
@[simp] theorem transmitBuf_schedule (s : State) : (transmitBuf s).schedule = s.schedule := rfl

@[simp] theorem flushTransport_pkt (s : State) : (flushTransport s).pkt = s.pkt := rfl
@[simp] theorem flushTransport_buf (s : State) : (flushTransport s).buf = s.buf := rfl
@[simp] theorem flushTransport_rc (s : State) : (flushTransport s).rc = s.rc := rfl
@[simp] theorem flushTransport_res (s : State) : (flushTransport s).res = s.res := rfl
@[simp] theorem flushTransport_busy (s : State) : (flushTransport s).busy = s.busy := rfl
@[simp] theorem flushTransport_rxcnt (s : State) : (flushTransport s).rxcnt = s.rxcnt := rfl
@[simp] theorem flushTransport_program (s : State) : (flushTransport s).program = s.program := rfl
@[simp] theorem flushTransport_pc (s : State) : (flushTransport s).pc = s.pc := rfl
@[simp] theorem flushTransport_rx (s : State) : (flushTransport s).rx = s.rx := rfl
@[simp] theorem flushTransport_rxpos (s : State) : (flushTransport s).rxpos = s.rxpos := rfl
@[simp] theorem flushTransport_rxMode (s : State) : (flushTransport s).rxMode = s.rxMode := rfl
@[simp] theorem flushTransport_out (s : State) : (flushTransport s).out = s.out ++ [.txFlush] := rfl
@[simp] theorem flushTransport_resetCount (s : State) : (flushTransport s).resetCount = s.resetCount := rfl
@[simp] theorem flushTransport_schedule (s : State) : (flushTransport s).schedule = s.schedule := rfl

end Sys2Proof.Machine
end

