-- ==== Sys2Proof/Laws/Memory.lean ====
section
/-! SUPPORT. The frame buffer's laws: read after write, what a run of writes leaves, and that every operation keeps the canonical form. -/

namespace Sys2Proof.Machine

@[simp] theorem Memory.read?_nil (a : Nat) : Memory.read? [] a = none := rfl

theorem Memory.read?_write (m : Memory) (a b : Nat) (v : Byte) :
    Memory.read? (Memory.write m a v) b = if a = b then some v else Memory.read? m b := by
  induction m with
  | nil => simp [Memory.write, Memory.read?]
  | cons e rest ih =>
    obtain ⟨k, w⟩ := e
    by_cases hlt : a < k
    · simp [Memory.write, hlt, Memory.read?]
    · by_cases heq : a = k
      · subst heq
        by_cases hab : a = b <;> simp [Memory.write, Memory.read?, hab]
      · simp only [Memory.write, hlt, heq, if_false, Memory.read?, ih]
        by_cases hkb : k = b
        · simp [hkb, show ¬ a = b by omega]
        · simp [hkb]

/-- A written byte reads back. -/
theorem Memory.read?_write_self (m : Memory) (a : Nat) (v : Byte) : Memory.read? (Memory.write m a v) a = some v := by
  simp [Memory.read?_write]

/-- A write leaves every other byte alone. -/
theorem Memory.read?_write_of_ne (m : Memory) (a b : Nat) (v : Byte) (h : a ≠ b) :
    Memory.read? (Memory.write m a v) b = Memory.read? m b := by
  simp [Memory.read?_write, h]

theorem Memory.read?_append (m n : Memory) (b : Nat) :
    Memory.read? (m ++ n) b = (Memory.read? m b).or (Memory.read? n b) := by
  induction m with
  | nil => simp
  | cons e rest ih =>
    obtain ⟨k, w⟩ := e
    by_cases h : k = b <;> simp [Memory.read?, h, ih]

theorem Memory.read?_filter (m : Memory) (p : Nat → Bool) (b : Nat) :
    Memory.read? (m.filter (fun c => p c.1)) b = if p b then Memory.read? m b else none := by
  induction m with
  | nil => simp
  | cons e rest ih =>
    obtain ⟨k, w⟩ := e
    by_cases hk : p k
    · by_cases h : k = b
      · subst h; simp [Memory.read?, hk]
      · simp [Memory.read?, hk, h, ih]
    · by_cases h : k = b
      · subst h; simp [hk, ih]
      · simp [Memory.read?, hk, h, ih]

theorem Memory.read?_cellsFrom (l : List Byte) (a b : Nat) :
    Memory.read? (Memory.cellsFrom a l) b = if a ≤ b ∧ b < a + l.length then l[b - a]? else none := by
  induction l generalizing a with
  | nil => simp [Memory.cellsFrom, show ¬ (a ≤ b ∧ b < a) by omega]
  | cons x rest ih =>
    simp only [Memory.cellsFrom, Memory.read?, ih, List.length_cons]
    by_cases hab : a = b
    · subst hab; simp
    · by_cases h1 : a + 1 ≤ b ∧ b < a + 1 + rest.length
      · have h2 : a ≤ b ∧ b < a + (rest.length + 1) := by omega
        have h3 : b - a = (b - (a + 1)) + 1 := by omega
        simp [h1, h2, h3, hab]
      · rw [if_neg hab, if_neg h1, if_neg (show ¬ (a ≤ b ∧ b < a + (rest.length + 1)) by omega)]

/-- What a run of writes leaves at each offset. -/
theorem Memory.read?_writeAll (l : List Byte) (m : Memory) (a b : Nat) :
    Memory.read? (Memory.writeAll m a l) b = if a ≤ b ∧ b < a + l.length then l[b - a]? else Memory.read? m b := by
  rw [Memory.writeAll, Memory.read?_append, Memory.read?_append, Memory.read?_cellsFrom,
    Memory.read?_filter m (fun k => decide (k < a)), Memory.read?_filter m (fun k => decide (a + l.length ≤ k))]
  by_cases h1 : b < a
  · simp [h1, show ¬ a ≤ b by omega, show ¬ a + l.length ≤ b by omega]
  · by_cases h2 : b < a + l.length
    · simp [h1, h2, show a ≤ b by omega, show ¬ a + l.length ≤ b by omega]
    · simp [h1, h2, show a + l.length ≤ b by omega]

theorem Memory.risingFrom_mono {lo lo' : Nat} {m : Memory} (h : Memory.risingFrom lo m = true) (hle : lo' ≤ lo) :
    Memory.risingFrom lo' m = true := by
  cases m with
  | nil => rfl
  | cons e rest =>
    obtain ⟨k, w⟩ := e
    simp only [Memory.risingFrom, Bool.and_eq_true, decide_eq_true_eq] at h ⊢
    exact ⟨by omega, h.2⟩

theorem Memory.risingFrom_write {lo : Nat} {m : Memory} {a : Nat} (v : Byte) (h : Memory.risingFrom lo m = true) (hlo : lo ≤ a)
    (ha : a < Config.packetSize) : Memory.risingFrom lo (Memory.write m a v) = true := by
  induction m generalizing lo with
  | nil => simp [Memory.write, Memory.risingFrom, hlo, ha]
  | cons e rest ih =>
    obtain ⟨k, w⟩ := e
    simp only [Memory.risingFrom, Bool.and_eq_true, decide_eq_true_eq] at h
    by_cases hlt : a < k
    · simp only [Memory.write, hlt, if_true, Memory.risingFrom, Bool.and_eq_true, decide_eq_true_eq]
      exact ⟨hlo, ha, by omega, h.2⟩
    · by_cases heq : a = k
      · subst heq
        simp only [Memory.write, hlt, if_false, if_true, Memory.risingFrom, Bool.and_eq_true, decide_eq_true_eq]
        exact ⟨hlo, ha, h.2.2⟩
      · simp only [Memory.write, hlt, heq, if_false, Memory.risingFrom, Bool.and_eq_true, decide_eq_true_eq]
        exact ⟨h.1, h.2.1, ih h.2.2 (by omega)⟩

/-- A write below `PACKET_SIZE` keeps the canonical form. -/
theorem Memory.wf_write {m : Memory} {a : Nat} (v : Byte) (h : Memory.wf m = true) (ha : a < Config.packetSize) :
    Memory.wf (Memory.write m a v) = true :=
  Memory.risingFrom_write v h (Nat.zero_le a) ha

theorem Memory.risingFrom_filter {lo : Nat} {m : Memory} (p : Host.Cell → Bool) (h : Memory.risingFrom lo m = true) :
    Memory.risingFrom lo (m.filter p) = true := by
  induction m generalizing lo with
  | nil => rfl
  | cons e rest ih =>
    obtain ⟨k, w⟩ := e
    simp only [Memory.risingFrom, Bool.and_eq_true, decide_eq_true_eq] at h
    by_cases hp : p (k, w) = true
    · simp only [List.filter_cons, hp, if_true, Memory.risingFrom, Bool.and_eq_true, decide_eq_true_eq]
      exact ⟨h.1, h.2.1, ih h.2.2⟩
    · simp only [List.filter_cons, hp, if_false, Bool.false_eq_true]
      exact Memory.risingFrom_mono (ih h.2.2) (by omega)

theorem Memory.risingFrom_append {lo mid : Nat} {m n : Memory} (hm : Memory.risingFrom lo m = true) (hlo : lo ≤ mid)
    (hlt : ∀ c ∈ m, c.1 < mid) (hn : Memory.risingFrom mid n = true) : Memory.risingFrom lo (m ++ n) = true := by
  induction m generalizing lo with
  | nil => exact Memory.risingFrom_mono hn hlo
  | cons e rest ih =>
    obtain ⟨k, w⟩ := e
    simp only [List.cons_append, Memory.risingFrom, Bool.and_eq_true, decide_eq_true_eq] at hm ⊢
    exact ⟨hm.1, hm.2.1, ih hm.2.2 (hlt (k, w) (by simp)) (fun c hc => hlt c (by simp [hc]))⟩

theorem Memory.risingFrom_cellsFrom {a : Nat} {l : List Byte} (h : a + l.length ≤ Config.packetSize) :
    Memory.risingFrom a (Memory.cellsFrom a l) = true := by
  induction l generalizing a with
  | nil => rfl
  | cons x rest ih =>
    simp only [List.length_cons] at h
    simp only [Memory.cellsFrom, Memory.risingFrom, Bool.and_eq_true, decide_eq_true_eq]
    exact ⟨le_refl _, by omega, ih (by omega)⟩

theorem Memory.cellsFrom_lt {a : Nat} {l : List Byte} {c : Host.Cell} (h : c ∈ Memory.cellsFrom a l) : a ≤ c.1 ∧ c.1 < a + l.length := by
  induction l generalizing a with
  | nil => cases h
  | cons x rest ih =>
    simp only [Memory.cellsFrom, List.mem_cons, List.length_cons] at h ⊢
    rcases h with rfl | h
    · simp
    · have := ih h; omega

/-- A run of bytes past `hi` that rises from some point and stays at or above `hi` rises from `hi`. -/
theorem Memory.risingFrom_of_le {lo hi : Nat} {m : Memory} (h : Memory.risingFrom lo m = true) (hge : ∀ c ∈ m, hi ≤ c.1) :
    Memory.risingFrom hi m = true := by
  cases m with
  | nil => rfl
  | cons e rest =>
    obtain ⟨k, w⟩ := e
    simp only [Memory.risingFrom, Bool.and_eq_true, decide_eq_true_eq] at h ⊢
    exact ⟨hge (k, w) (by simp), h.2⟩

/-- A run of writes below `PACKET_SIZE` keeps the canonical form. -/
theorem Memory.wf_writeAll {m : Memory} {a : Nat} (l : List Byte) (h : Memory.wf m = true) (ha : a + l.length ≤ Config.packetSize) :
    Memory.wf (Memory.writeAll m a l) = true := by
  refine Memory.risingFrom_append (mid := a) (Memory.risingFrom_filter _ h) (Nat.zero_le a) (fun c hc => by simpa using (List.mem_filter.1 hc).2) ?_
  refine Memory.risingFrom_append (mid := a + l.length) (Memory.risingFrom_cellsFrom ha) (by omega) (fun c hc => (Memory.cellsFrom_lt hc).2) ?_
  exact Memory.risingFrom_of_le (Memory.risingFrom_filter _ h) (fun c hc => by simpa using (List.mem_filter.1 hc).2)

/-- The empty buffer, which reset leaves, is canonical. -/
theorem Memory.wf_nil : Memory.wf [] = true := rfl

/-- The reset state's buffer is in canonical form. -/
theorem reset_buf_wf : Memory.wf State.reset.buf = true := rfl

/-- A byte written within the frame keeps the canonical form. -/
theorem writeBuf_wf {s : State} {a : Nat} (v : Byte) (h : Memory.wf s.buf = true) (ha : a < Config.packetSize) :
    Memory.wf (writeBuf a v s).buf = true := Memory.wf_write v h ha

/-- A frame image written keeps the canonical form. -/
theorem writeFrame_wf {s : State} {l : List Byte} (h : Memory.wf s.buf = true) (hl : l.length ≤ Config.packetSize) :
    Memory.wf (writeFrame l s).buf = true := Memory.wf_writeAll l h (by omega)

theorem Memory.read?_of_lt_risingFrom {lo : Nat} {m : Memory} (h : Memory.risingFrom lo m = true) {a : Nat} (ha : a < lo) :
    Memory.read? m a = none := by
  induction m generalizing lo with
  | nil => rfl
  | cons e rest ih =>
    obtain ⟨k, w⟩ := e
    simp only [Memory.risingFrom, Bool.and_eq_true, decide_eq_true_eq] at h
    simp only [Memory.read?, show ¬ k = a by omega, if_false]
    exact ih h.2.2 (by omega)

/-- Canonical buffers that hold the same bytes are the same data. -/
theorem Memory.ext_of_risingFrom {lo : Nat} {m n : Memory} (hm : Memory.risingFrom lo m = true) (hn : Memory.risingFrom lo n = true)
    (h : ∀ a, Memory.read? m a = Memory.read? n a) : m = n := by
  induction m generalizing lo n with
  | nil =>
    cases n with
    | nil => rfl
    | cons e rest => simpa [Memory.read?] using h e.1
  | cons e rest ih =>
    obtain ⟨k, w⟩ := e
    cases n with
    | nil => simpa [Memory.read?] using h k
    | cons e' rest' =>
      obtain ⟨k', w'⟩ := e'
      simp only [Memory.risingFrom, Bool.and_eq_true, decide_eq_true_eq] at hm hn
      have hk : k = k' := by
        by_contra hne
        rcases Nat.lt_or_gt_of_ne hne with hlt | hlt
        · have h1 := h k
          have h2 := Memory.read?_of_lt_risingFrom hn.2.2 (show k < k' + 1 by omega)
          simp [Memory.read?, show ¬ k' = k by omega, h2] at h1
        · have h1 := h k'
          have h2 := Memory.read?_of_lt_risingFrom hm.2.2 (show k' < k + 1 by omega)
          simp [Memory.read?, show ¬ k = k' by omega, h2] at h1
      subst hk
      have hw : w = w' := by simpa [Memory.read?] using h k
      subst hw
      have hrest : rest = rest' := by
        refine ih hm.2.2 hn.2.2 fun a => ?_
        by_cases hak : k = a
        · subst hak
          rw [Memory.read?_of_lt_risingFrom hm.2.2 (Nat.lt_succ_self _), Memory.read?_of_lt_risingFrom hn.2.2 (Nat.lt_succ_self _)]
        · simpa [Memory.read?, hak] using h a
      rw [hrest]

/-- Equal reads make equal canonical buffers. -/
theorem Memory.ext_of_wf {m n : Memory} (hm : Memory.wf m = true) (hn : Memory.wf n = true)
    (h : ∀ a, Memory.read? m a = Memory.read? n a) : m = n :=
  Memory.ext_of_risingFrom hm hn h

/-- Writing the same byte again changes nothing. -/
theorem Memory.write_write_self (m : Memory) (a : Nat) (v : Byte) :
    Memory.write (Memory.write m a v) a v = Memory.write m a v := by
  induction m with
  | nil => simp [Memory.write]
  | cons e rest ih =>
    obtain ⟨k, x⟩ := e
    by_cases hlt : a < k
    · simp [Memory.write, hlt]
    · by_cases heq : a = k
      · subst heq; simp [Memory.write]
      · simp [Memory.write, hlt, heq, ih]

/-- Writing the same run of bytes again changes nothing. -/
theorem Memory.writeAll_writeAll_self (l : List Byte) (m : Memory) (a : Nat) :
    Memory.writeAll (Memory.writeAll m a l) a l = Memory.writeAll m a l := by
  have hlow : (Memory.cellsFrom a l).filter (fun c => decide (c.1 < a)) = [] :=
    List.filter_eq_nil_iff.2 fun c hc => by have := Memory.cellsFrom_lt hc; simp; omega
  have hhigh : (Memory.cellsFrom a l).filter (fun c => decide (a + l.length ≤ c.1)) = [] :=
    List.filter_eq_nil_iff.2 fun c hc => by have := Memory.cellsFrom_lt hc; simp; omega
  have hlh : (m.filter (fun c => decide (c.1 < a))).filter (fun c => decide (a + l.length ≤ c.1)) = [] :=
    List.filter_eq_nil_iff.2 fun c hc => by have := (List.mem_filter.1 hc).2; simp at this ⊢; omega
  have hhl : (m.filter (fun c => decide (a + l.length ≤ c.1))).filter (fun c => decide (c.1 < a)) = [] :=
    List.filter_eq_nil_iff.2 fun c hc => by have := (List.mem_filter.1 hc).2; simp at this ⊢; omega
  simp only [Memory.writeAll, List.filter_append, hlow, hhigh, hlh, hhl, List.filter_filter, Bool.and_self, List.nil_append, List.append_nil]

/-! ### `BUF` of a state -/

theorem bufByte_of_buf_eq {s t : State} (hb : t.buf = s.buf) (hr : t.resetCount = s.resetCount) (a : Nat) : bufByte t a = bufByte s a := by
  simp [bufByte, unlistedByte, hb, hr]

theorem bufFrame_of_buf_eq {s t : State} (hb : t.buf = s.buf) (hr : t.resetCount = s.resetCount) : bufFrame t = bufFrame s := by
  simp [bufFrame, funext (bufByte_of_buf_eq hb hr)]

theorem bufByte_writeBuf (s : State) (a b : Nat) (v : Byte) :
    bufByte (writeBuf a v s) b = if a = b then v else bufByte s b := by
  by_cases h : a = b <;> simp [bufByte, Memory.read?_write, h, unlistedByte]

theorem bufByte_writeFrame (s : State) (l : List Byte) (b : Nat) :
    bufByte (writeFrame l s) b = if b < l.length then byteAt l b else bufByte s b := by
  by_cases h : b < l.length <;> simp [bufByte, Memory.read?_writeAll, h, unlistedByte, byteAt]

@[simp] theorem bufFrame_length (s : State) : (bufFrame s).length = Config.packetSize := by simp [bufFrame]

/-- Byte `i` of `BUF[0..21]`. -/
theorem byteAt_bufFrame (s : State) {i : Nat} (h : i < Config.packetSize) : byteAt (bufFrame s) i = bufByte s i := by
  simp [byteAt, bufFrame, h]

/-- A frame of 22 bytes is determined by its bytes. -/
theorem frame_ext {l m : List Byte} (hl : l.length = Config.packetSize) (hm : m.length = Config.packetSize)
    (h : ∀ i, i < Config.packetSize → byteAt l i = byteAt m i) : l = m := by
  apply List.ext_getElem (by omega)
  intro i h1 h2
  have := h i (by omega)
  simpa [byteAt, h1, h2] using this

/-- After 22 bytes are written from offset 0, `BUF` is those bytes. -/
theorem bufFrame_writeFrame (s : State) {l : List Byte} (hl : l.length = Config.packetSize) : bufFrame (writeFrame l s) = l :=
  frame_ext (bufFrame_length _) hl fun i hi => by
    rw [byteAt_bufFrame _ hi, bufByte_writeFrame, if_pos (by omega)]

/-- The bytes of a state whose buffer is another's with a run of bytes written from offset 0. -/
theorem bufByte_of_buf_writeAll {s t : State} {l : List Byte} (hb : t.buf = Memory.writeAll s.buf 0 l) (hr : t.resetCount = s.resetCount)
    (b : Nat) : bufByte t b = if b < l.length then byteAt l b else bufByte s b := by
  rw [← bufByte_writeFrame, bufByte, bufByte, unlistedByte, unlistedByte, writeFrame_buf, writeFrame_resetCount, hb, hr]

/-- Such a state's `BUF[0..21]` is the run written, when it has 22 bytes. -/
theorem bufFrame_of_buf_writeAll {s t : State} {l : List Byte} (hb : t.buf = Memory.writeAll s.buf 0 l) (hr : t.resetCount = s.resetCount)
    (hl : l.length = Config.packetSize) : bufFrame t = l :=
  frame_ext (bufFrame_length _) hl fun i hi => by
    rw [byteAt_bufFrame _ hi, bufByte_of_buf_writeAll hb hr, if_pos (by omega)]

end Sys2Proof.Machine
end

