-- ==== Sys2Proof/Laws/Frame.lean ====
section
/-! SUPPORT. The byte-order helpers and the parts of `Serialize` and `Deserialize`: lengths, which byte stands where, and that
splitting and joining a field undo each other. -/

namespace Sys2Proof.Machine

theorem join4_toNat (a b c d : Byte) :
    (join4 a b c d).toNat = a.toNat * 2 ^ 24 + b.toNat * 2 ^ 16 + c.toNat * 2 ^ 8 + d.toNat := by
  have hb := b.isLt
  have hc := c.isLt
  have hd := d.isLt
  simp only [join4, BitVec.toNat_append]
  rw [← Nat.shiftLeft_add_eq_or_of_lt hb, ← Nat.shiftLeft_add_eq_or_of_lt hc, ← Nat.shiftLeft_add_eq_or_of_lt hd]
  simp only [Nat.shiftLeft_eq]
  omega

theorem join3_toNat (a b c : Byte) : (join3 a b c).toNat = a.toNat * 2 ^ 16 + b.toNat * 2 ^ 8 + c.toNat := by
  have hb := b.isLt
  have hc := c.isLt
  simp only [join3, BitVec.toNat_append]
  rw [← Nat.shiftLeft_add_eq_or_of_lt hb, ← Nat.shiftLeft_add_eq_or_of_lt hc]
  simp only [Nat.shiftLeft_eq]
  omega

theorem extract_toNat {n : Nat} (v : BitVec n) (k : Nat) : (v.extractLsb' k 8).toNat = v.toNat / 2 ^ k % 2 ^ 8 := by
  simp [BitVec.extractLsb'_toNat, Nat.shiftRight_eq_div_pow]

/-- Joining the four bytes of a field gives the field. -/
theorem join4_extract (v : Word) :
    join4 (v.extractLsb' 24 8) (v.extractLsb' 16 8) (v.extractLsb' 8 8) (v.extractLsb' 0 8) = v := by
  apply BitVec.eq_of_toNat_eq
  have := v.isLt
  simp only [join4_toNat, extract_toNat]
  omega

/-- Joining the three bytes of an integrity value gives the value. -/
theorem join3_extract (v : Crc) : join3 (v.extractLsb' 16 8) (v.extractLsb' 8 8) (v.extractLsb' 0 8) = v := by
  apply BitVec.eq_of_toNat_eq
  have := v.isLt
  simp only [join3_toNat, extract_toNat]
  omega

/-- Splitting a joined field gives its bytes. -/
theorem bytes4_join4 (a b c d : Byte) : bytes4 (join4 a b c d) = [a, b, c, d] := by
  have ha := a.isLt
  have hb := b.isLt
  have hc := c.isLt
  have hd := d.isLt
  simp only [bytes4, List.cons.injEq, and_true]
  refine ⟨?_, ?_, ?_, ?_⟩ <;> apply BitVec.eq_of_toNat_eq <;> simp only [extract_toNat, join4_toNat] <;> omega

/-- Splitting a joined integrity value gives its bytes. -/
theorem bytes3_join3 (a b c : Byte) : bytes3 (join3 a b c) = [a, b, c] := by
  have ha := a.isLt
  have hb := b.isLt
  have hc := c.isLt
  simp only [bytes3, List.cons.injEq, and_true]
  refine ⟨?_, ?_, ?_⟩ <;> apply BitVec.eq_of_toNat_eq <;> simp only [extract_toNat, join3_toNat] <;> omega

/-- The three bytes determine the integrity value. -/
theorem bytes3_injective {v w : Crc} (h : bytes3 v = bytes3 w) : v = w := by
  simp only [bytes3, List.cons.injEq, and_true] at h
  rw [← join3_extract v, ← join3_extract w, h.1, h.2.1, h.2.2]

@[simp] theorem bytes4_length (v : Word) : (bytes4 v).length = 4 := rfl
@[simp] theorem bytes3_length (v : Crc) : (bytes3 v).length = 3 := rfl
@[simp] theorem content_length (p : Packet) : (content p).length = Config.contentLen := rfl
@[simp] theorem serialize_length (p : Packet) : (serialize p).length = Config.packetSize := rfl

/-- The content bytes of a serialized packet. -/
@[simp] theorem contentOf_serialize (p : Packet) : contentOf (serialize p) = content p :=
  List.take_left' (content_length p)

/-- The integrity field of a serialized packet. -/
@[simp] theorem drop_serialize (p : Packet) : (serialize p).drop Config.contentLen = bytes3 (crc24 (content p)) :=
  List.drop_left' (content_length p)

/-- Every serialized packet is an acceptable frame: marker at offset 0, integrity field the CRC of the content. -/
theorem acceptable_serialize (p : Packet) : acceptable (serialize p) = true := by
  have h0 : byteAt (serialize p) 0 = Config.sof := rfl
  simp [acceptable, h0]

/-- What an acceptable frame is, as a conjunction. -/
theorem acceptable_iff (b : List Byte) :
    acceptable b = true ↔ b.length = Config.packetSize ∧ byteAt b 0 = Config.sof ∧ b.drop Config.contentLen = bytes3 (crc24 (contentOf b)) := by
  simp [acceptable]

/-- A 22-byte sequence written out by its bytes. -/
theorem frame_eta {b : List Byte} (h : b.length = Config.packetSize) :
    b = [byteAt b 0, byteAt b 1, byteAt b 2, byteAt b 3, byteAt b 4, byteAt b 5, byteAt b 6, byteAt b 7, byteAt b 8, byteAt b 9,
      byteAt b 10, byteAt b 11, byteAt b 12, byteAt b 13, byteAt b 14, byteAt b 15, byteAt b 16, byteAt b 17, byteAt b 18, byteAt b 19,
      byteAt b 20, byteAt b 21] := by
  refine frame_ext h rfl fun i hi => ?_
  simp only [Config.packetSize] at hi
  interval_cases i <;> rfl

/-- The content built from a deserialized image is the image's content with the marker at offset 0. -/
theorem content_deserialize {b : List Byte} (h : b.length = Config.packetSize) :
    content (deserialize b) = Config.sof :: (contentOf b).drop 1 := by
  rw [frame_eta h]
  simp [content, deserialize, bytes4_join4, byteAt, contentOf, Config.contentLen]

/-- The integrity field of an image is the bytes of the deserialized `crc`. -/
theorem drop_eq_bytes3_deserialize {b : List Byte} (h : b.length = Config.packetSize) :
    b.drop Config.contentLen = bytes3 (deserialize b).crc := by
  rw [frame_eta h]
  simp [deserialize, bytes3_join3, byteAt, Config.contentLen]

/-- The CRC comparison of `RECV` says exactly whether a marked image is acceptable. -/
theorem acceptable_iff_crc {b : List Byte} (h : b.length = Config.packetSize) (h0 : byteAt b 0 = Config.sof) :
    acceptable b = true ↔ crc24 (contentOf b) = (deserialize b).crc := by
  rw [acceptable_iff, drop_eq_bytes3_deserialize h]
  exact ⟨fun hh => (bytes3_injective hh.2.2).symm, fun hh => ⟨h, h0, by rw [hh]⟩⟩

/-- After a serialized packet is written over `BUF`, `BUF` is that frame. -/
theorem bufFrame_of_buf_serialize {s t : State} {p : Packet} (hb : t.buf = Memory.writeAll s.buf 0 (serialize p))
    (hr : t.resetCount = s.resetCount) : bufFrame t = serialize p :=
  bufFrame_of_buf_writeAll hb hr (serialize_length p)

end Sys2Proof.Machine
end

