-- ==== Sys2Proof/Laws/Crc.lean ====
section
/-! SUPPORT. The algebra of `CRC24`: it runs byte by byte, its shift is linear over XOR and loses nothing. -/

namespace Sys2Proof.Machine

theorem crcFrom_append (c : Crc) (l m : List Byte) : crcFrom c (l ++ m) = crcFrom (crcFrom c l) m := by
  induction l generalizing c with
  | nil => rfl
  | cons b rest ih => exact ih _

theorem crc24_eq_crcFrom (l : List Byte) : crc24 l = crcFrom Config.crcInit l := by
  simp [crc24, Config.crcXorOut]

@[simp] theorem crcShift_zero : crcShift 0 = 0 := by decide

/-- One shift step is linear. -/
theorem crcShift_xor (a b : Crc) : crcShift (a ^^^ b) = crcShift a ^^^ crcShift b := by
  unfold crcShift
  rw [BitVec.msb_xor, BitVec.shiftLeft_xor_distrib]
  cases a.msb <;> cases b.msb <;> simp only [Bool.xor_false, Bool.xor_true, Bool.not_true, Bool.not_false, if_true, if_false, Bool.false_eq_true]
  · rw [BitVec.xor_assoc]
  · rw [BitVec.xor_assoc, BitVec.xor_assoc, BitVec.xor_comm _ Config.crcPoly]
  · rw [BitVec.xor_assoc, ← BitVec.xor_assoc Config.crcPoly, BitVec.xor_comm Config.crcPoly, BitVec.xor_assoc (b <<< 1),
      BitVec.xor_self, BitVec.xor_zero]

theorem crcShifts_zero_right (n : Nat) : crcShifts n 0 = 0 := by
  induction n with
  | zero => rfl
  | succ n ih => rw [crcShifts, crcShift_zero, ih]

theorem crcShifts_xor (n : Nat) (a b : Crc) : crcShifts n (a ^^^ b) = crcShifts n a ^^^ crcShifts n b := by
  induction n generalizing a b with
  | zero => rfl
  | succ n ih => rw [crcShifts, crcShift_xor, ih]; rfl

theorem crcShifts_add (m n : Nat) (c : Crc) : crcShifts (m + n) c = crcShifts n (crcShifts m c) := by
  induction m generalizing c with
  | zero => simp [crcShifts]
  | succ m ih => rw [show m + 1 + n = (m + n) + 1 by omega]; exact ih _

/-- One shift step loses nothing: only 0 goes to 0. -/
theorem crcShift_eq_zero {c : Crc} (h : crcShift c = 0) : c = 0 := by
  unfold crcShift at h
  split at h
  · have h0 : ((c <<< 1) ^^^ Config.crcPoly).getLsbD 0 = true := by
      rw [BitVec.getLsbD_xor, BitVec.getLsbD_shiftLeft]; simp [Config.crcPoly]
    rw [h] at h0; simp at h0
  · rename_i hm
    have hm' : c.msb = false := by simpa using hm
    apply BitVec.eq_of_getLsbD_eq
    intro i hi
    by_cases h23 : i = 23
    · subst h23; rw [BitVec.msb_eq_getLsbD_last] at hm'; simpa using hm'
    · have h1 := congrArg (fun v : Crc => v.getLsbD (i + 1)) h
      simpa [BitVec.getLsbD_shiftLeft, show i + 1 < 24 by omega, ← BitVec.getLsbD_eq_getElem] using h1

theorem crcShifts_eq_zero {n : Nat} {c : Crc} (h : crcShifts n c = 0) : c = 0 := by
  induction n generalizing c with
  | zero => exact h
  | succ n ih => exact crcShift_eq_zero (ih h)

theorem xor_eq_zero_iff (a b : Crc) : a ^^^ b = 0 ↔ a = b := by simp

/-- One byte, as a shift of two parts. -/
theorem crcByte_eq (c : Crc) (b : Byte) : crcByte c b = crcShifts 8 c ^^^ crcShifts 8 (b.setWidth 24 <<< 16) := by
  rw [crcByte, crcShifts_xor]

/-- The register after equal bytes differs when it differed before. -/
theorem crcFrom_injective {c d : Crc} {l : List Byte} (h : crcFrom c l = crcFrom d l) : c = d := by
  induction l generalizing c d with
  | nil => exact h
  | cons b rest ih =>
    have h1 : crcByte c b = crcByte d b := ih h
    rw [crcByte_eq, crcByte_eq, ← xor_eq_zero_iff] at h1
    have h2 : crcShifts 8 (c ^^^ d) = 0 := by
      rw [crcShifts_xor]
      rw [BitVec.xor_comm (crcShifts 8 d), BitVec.xor_assoc, ← BitVec.xor_assoc (crcShifts 8 _) (crcShifts 8 _) (crcShifts 8 d),
        BitVec.xor_self, BitVec.zero_xor] at h1
      exact h1
    exact (xor_eq_zero_iff c d).mp (crcShifts_eq_zero h2)

end Sys2Proof.Machine
end

