-- ==== Sys2Proof/Laws/Command.lean ====
section
/-! SUPPORT. What a command that answers a next state has done: one inversion lemma for the command interface and one equation for
each meaning on an idle core. -/

namespace Sys2Proof.Machine

/-- An accepted command runs. -/
theorem command_idle {s : State} (h : s.busy = false) (run : State → State) : command s run = .next (run s) := by
  simp [command, h]

/-- A command presented while `BUSY` = 1 is refused. -/
theorem command_busy {s : State} (h : s.busy = true) (run : State → State) : command s run = .refused .commandWhileBusy := by
  simp [command, h]

/-- If a command answers a next state, the core was idle and the state is what the command computes. -/
theorem command_next {s t : State} {run : State → State} (h : command s run = .next t) : s.busy = false ∧ t = run s := by
  unfold command at h
  split at h
  · cases h
  · rename_i hb
    exact ⟨by simpa using hb, by injection h with h; exact h.symm⟩

/-- Ending a command on an idle core writes only `RC` and `pc`. -/
theorem endCommand_idle {s : State} (h : s.busy = false) (c : ResultCode) : endCommand c s = { s with rc := c, pc := s.pc + 1 } := by
  simp [endCommand, h]

/-- An offset operand either runs the command or ends it with `ILLEGAL`. -/
theorem withOffset_legal {i : BitVec 5} (h : offsetLegal i = true) (run : Nat → State → State) (s : State) :
    withOffset i run s = run i.toNat s := by
  simp [withOffset, h]

theorem withOffset_illegal {i : BitVec 5} (h : offsetLegal i = false) (run : Nat → State → State) (s : State) :
    withOffset i run s = illegalCommand s := by
  simp [withOffset, h]

theorem offsetLegal_iff (i : BitVec 5) : offsetLegal i = true ↔ i.toNat ≤ 21 := by
  simp [offsetLegal, Config.packetSize, Nat.lt_succ_iff]

theorem offsetLegal_eq_false_iff (i : BitVec 5) : offsetLegal i = false ↔ 21 < i.toNat := by
  rw [← Bool.not_eq_true, offsetLegal_iff]; omega

/-- A written field reads back truncated to its width, and the others are kept. -/
theorem fieldNat_fieldWrite (p : Packet) (f g : PktField) (v : Word) :
    fieldNat (fieldWrite p f v) g = if g = f then v.toNat % 2 ^ fieldWidth f else fieldNat p g := by
  have := v.isLt
  cases f <;> cases g <;> simp [fieldWrite, fieldNat, fieldWidth, truncByte, truncCrc, BitVec.toNat_setWidth] <;> omega

/-- `GETF` zero-extends: the word has the field's value. -/
theorem fieldRead_toNat (p : Packet) (f : PktField) : (fieldRead p f).toNat = fieldNat p f := by
  have h1 := p.pin.isLt
  have h2 := p.pinMode.isLt
  have h3 := p.crc.isLt
  cases f <;> simp [fieldRead, fieldNat, zextByte, zextCrc, BitVec.toNat_setWidth] <;> omega

/-! ### Each command on an idle core, in the named updates -/

theorem exec_clr_idle {s : State} (h : s.busy = false) :
    exec .clr s = .next (endOk (setPkt Packet.cleared s)) := by
  simp only [exec, execClr, command_idle h]

theorem exec_ser_idle {s : State} (h : s.busy = false) :
    exec .ser s = .next (endOk (setRes frameSizeWord (serializeToBuf s))) := by
  simp only [exec, execSer, command_idle h]

theorem exec_des_idle {s : State} (h : s.busy = false) :
    exec .des s = .next (endOk (setPkt (deserialize (bufFrame s)) s)) := by
  simp only [exec, execDes, command_idle h]

theorem exec_crc_idle {s : State} (h : s.busy = false) :
    exec .crc s = .next (endOk (setRes (zextCrc (crc24 (contentOf (bufFrame s)))) s)) := by
  simp only [exec, execCrc, command_idle h]

theorem exec_val_idle {s : State} (h : s.busy = false) :
    exec .val s = .next (endOk (setRes (truthWord (packetValid s.pkt)) s)) := by
  simp only [exec, execVal, command_idle h]

theorem exec_recv_idle {s : State} (h : s.busy = false) :
    exec .recv s = .next (recvContinue (recvStart s)) := by
  simp only [exec, execRecv, command_idle h]

theorem exec_getf_idle {s : State} (h : s.busy = false) (f : PktField) :
    exec (.getf f) s = .next (endOk (setRes (fieldRead s.pkt f) s)) := by
  simp only [exec, execGetf, command_idle h]

theorem exec_setf_idle {s : State} (h : s.busy = false) (f : PktField) (v : Word) :
    exec (.setf f v) s = .next (endOk (setPkt (fieldWrite s.pkt f v) s)) := by
  simp only [exec, execSetf, command_idle h]

theorem exec_send_idle {s : State} (h : s.busy = false) : exec .send s = .next (sendFrame s) := by
  simp only [exec, execSend, command_idle h]

theorem exec_rdb_idle {s : State} (h : s.busy = false) {a : BitVec 5} (ha : offsetLegal a = true) :
    exec (.rdb a) s = .next (endOk (setRes (zextByte (bufByte s a.toNat)) s)) :=
  (command_idle h _).trans (congrArg _ (withOffset_legal ha _ s))

theorem exec_wrb_idle {s : State} (h : s.busy = false) {a : BitVec 5} (ha : offsetLegal a = true) (v : Word) :
    exec (.wrb a v) s = .next (endOk (writeBuf a.toNat (truncByte v) s)) :=
  (command_idle h _).trans (congrArg _ (withOffset_legal ha _ s))

theorem exec_rdb_illegal {s : State} (h : s.busy = false) {a : BitVec 5} (ha : offsetLegal a = false) :
    exec (.rdb a) s = .next (illegalCommand s) :=
  (command_idle h _).trans (congrArg _ (withOffset_illegal ha _ s))

theorem exec_wrb_illegal {s : State} (h : s.busy = false) {a : BitVec 5} (ha : offsetLegal a = false) (v : Word) :
    exec (.wrb a v) s = .next (illegalCommand s) :=
  (command_idle h _).trans (congrArg _ (withOffset_illegal ha _ s))

/-- `SEND` in the named updates: the block written is the serialized packet. -/
theorem transmitBuf_serializeToBuf (s : State) :
    transmitBuf (serializeToBuf s) = emit (.txWrite (serialize s.pkt)) (serializeToBuf s) := by
  rw [transmitBuf, bufFrame_of_buf_serialize (serializeToBuf_buf s) (serializeToBuf_resetCount s)]

/-- A command that answers a next state was presented to an idle core. -/
theorem exec_next_idle {i : Instr} {s t : State} (hi : isCommand i = true) (h : exec i s = .next t) : s.busy = false := by
  by_contra hb
  have hb : s.busy = true := by simpa using hb
  cases i <;> simp only [exec, execClr, execSer, execDes, execCrc, execVal, execRecv, execSend, execGetf, execSetf, execRdb, execWrb,
    command_busy hb, isCommand, reduceCtorEq] at h hi

end Sys2Proof.Machine
end

