-- ==== Sys2Proof/Laws/Decode.lean ====
section
/-! SUPPORT. The decoder's parts: a command word and its two bytes determine each other, and what each operand form accepts. -/

namespace Sys2Proof

open Sys2Proof.Machine

theorem mkWord_toNat (op arg : Byte) : (mkWord op arg).toNat = op.toNat * 256 + arg.toNat := by
  simp only [mkWord, BitVec.toNat_append]
  rw [← Nat.shiftLeft_add_eq_or_of_lt arg.isLt, Nat.shiftLeft_eq]

@[simp] theorem opOf_mkWord (op arg : Byte) : opOf (mkWord op arg) = op := by
  apply BitVec.eq_of_toNat_eq
  have h1 := op.isLt
  have h2 := arg.isLt
  simp only [opOf, extract_toNat, mkWord_toNat]
  omega

@[simp] theorem argOf_mkWord (op arg : Byte) : argOf (mkWord op arg) = arg := by
  apply BitVec.eq_of_toNat_eq
  have h2 := arg.isLt
  simp only [argOf, extract_toNat, mkWord_toNat]
  omega

/-- A command word is its operation code and its argument. -/
theorem mkWord_opOf_argOf (cw : CmdWord) : mkWord (opOf cw) (argOf cw) = cw := by
  apply BitVec.eq_of_toNat_eq
  have := cw.isLt
  simp only [mkWord_toNat, opOf, argOf, extract_toNat]
  omega

theorem opOf_toNat (cw : CmdWord) : (opOf cw).toNat = cw.toNat / 256 := by
  have := cw.isLt
  simp only [opOf, extract_toNat]
  omega

theorem argOf_toNat (cw : CmdWord) : (argOf cw).toNat = cw.toNat % 256 := by
  simp only [argOf, extract_toNat]
  omega

/-- The decoder on a word written as operation code and argument. -/
theorem decodeCommand_mkWord (op arg : Byte) (wd : Word) : decodeCommand ⟨mkWord op arg, wd⟩ = decodeOpArg op arg wd := by
  simp only [decodeCommand, opOf_mkWord, argOf_mkWord]

@[simp] theorem fieldOfSelect_selectOfField (f : PktField) : fieldOfSelect (selectOfField f).toNat = some f := by
  cases f <;> rfl

/-- A select above 6 is no field (30_encoding.md R92). -/
theorem fieldOfSelect_eq_none {n : Nat} (h : 6 < n) : fieldOfSelect n = none := by
  match n, h with
  | n + 7, _ => rfl

theorem selectOfField_toNat {n : Nat} {f : PktField} (h : fieldOfSelect n = some f) : (selectOfField f).toNat = n := by
  by_cases hn : 6 < n
  · rw [fieldOfSelect_eq_none hn] at h; cases h
  · interval_cases n <;> cases h <;> rfl

/-- What the argument-less form accepts. -/
theorem decodeNoArg_eq_ok {op arg : Byte} {i j : Instr} : decodeNoArg op arg i = .ok j ↔ arg = 0 ∧ j = i := by
  unfold decodeNoArg
  constructor
  · intro h
    split at h
    · rename_i ha
      injection h with h
      exact ⟨ha, h.symm⟩
    · cases h
  · rintro ⟨rfl, rfl⟩
    rfl

/-- What the field form accepts. -/
theorem decodeField_eq_ok {arg : Byte} {k : PktField → Instr} {j : Instr} :
    decodeField arg k = .ok j ↔ ∃ f, selectOfField f = arg ∧ j = k f := by
  unfold decodeField
  constructor
  · intro h
    split at h
    · rename_i f hf
      injection h with h
      exact ⟨f, BitVec.eq_of_toNat_eq (selectOfField_toNat hf), h.symm⟩
    · cases h
  · rintro ⟨f, rfl, rfl⟩
    simp

theorem offset_roundtrip : ∀ arg : Byte, arg.toNat < 22 → offsetLegal (arg.setWidth 5) = true ∧ (arg.setWidth 5).setWidth 8 = arg := by decide

theorem offset_widen : ∀ i : BitVec 5, offsetLegal i = true → (i.setWidth 8 : Byte).toNat < 22 ∧ ((i.setWidth 8 : Byte).setWidth 5) = i := by decide

/-- What the offset form accepts. -/
theorem decodeOffset_eq_ok {arg : Byte} {k : BitVec 5 → Instr} {j : Instr} :
    decodeOffset arg k = .ok j ↔ ∃ i, offsetLegal i = true ∧ i.setWidth 8 = arg ∧ j = k i := by
  unfold decodeOffset
  constructor
  · intro h
    split at h
    · rename_i hlt
      injection h with h
      exact ⟨_, (offset_roundtrip arg hlt).1, (offset_roundtrip arg hlt).2, h.symm⟩
    · cases h
  · rintro ⟨i, hi, rfl, rfl⟩
    have h := offset_widen i hi
    rw [if_pos (show _ < Config.packetSize from h.1), h.2]

end Sys2Proof
end

