-- ==== Sys2Proof/Laws/PerInstr.lean ====
section
/-! SUPPORT. Per instruction, about it as syntax: a well-formed instruction's encoding has the length of its row of
spec/opcode_table.json and the fixed bits that row gives. -/

namespace Sys2Proof.Laws.EncodeFormat

/-- The bits of an encoded form that the opcode table numbers: the command word, or the wire value. -/
def tableBits (e : Encoded) : Nat :=
  match e with
  | .command c => c.cw.toNat
  | .wireOpCode v => v.toNat

/-- How many bits the opcode table gives the form. -/
def tableLength (e : Encoded) : Nat :=
  match e with
  | .command _ => 16
  | .wireOpCode _ => 32

/-- A row of spec/opcode_table.json: its length in bits, its mask and its match. -/
structure Row where
  length : Nat
  mask : Nat
  value : Nat
  deriving DecidableEq, Repr

/-- The row of each instruction, transcribed from spec/opcode_table.json. -/
def row (i : Instr) : Row :=
  match i with
  | .clr => ⟨16, 0xFFFF, 0x0100⟩
  | .ser => ⟨16, 0xFFFF, 0x0200⟩
  | .des => ⟨16, 0xFFFF, 0x0300⟩
  | .crc => ⟨16, 0xFFFF, 0x0400⟩
  | .val => ⟨16, 0xFFFF, 0x0500⟩
  | .recv => ⟨16, 0xFFFF, 0x0600⟩
  | .send => ⟨16, 0xFFFF, 0x0700⟩
  | .getf _ => ⟨16, 0xFFF8, 0x0800⟩
  | .setf _ _ => ⟨16, 0xFFF8, 0x0900⟩
  | .rdb _ => ⟨16, 0xFFE0, 0x0A00⟩
  | .wrb _ _ => ⟨16, 0xFFE0, 0x0B00⟩
  | .opCode1000 => ⟨32, 0xFFFFFFFF, 0x000003E8⟩
  | .opCode1001 => ⟨32, 0xFFFFFFFF, 0x000003E9⟩
  | .opCode1002 => ⟨32, 0xFFFFFFFF, 0x000003EA⟩
  | .opCode1003 => ⟨32, 0xFFFFFFFF, 0x000003EB⟩
  | .opCode1004 => ⟨32, 0xFFFFFFFF, 0x000003EC⟩

/-- The encoding of a well-formed instruction fits its row. -/
def Statement (i : Instr) : Prop :=
  i.wf = true → tableLength (encode i) = (row i).length ∧ tableBits (encode i) &&& (row i).mask = (row i).value

theorem clr : Statement .clr := fun _ => by decide

theorem ser : Statement .ser := fun _ => by decide

theorem des : Statement .des := fun _ => by decide

theorem crc : Statement .crc := fun _ => by decide

theorem val : Statement .val := fun _ => by decide

theorem recv : Statement .recv := fun _ => by decide

theorem send : Statement .send := fun _ => by decide

theorem getf (f : PktField) : Statement (.getf f) := fun _ => by cases f <;> decide

theorem setf (f : PktField) (v : Word) : Statement (.setf f v) := fun _ =>
  ⟨rfl, show (mkWord 0x09 (selectOfField f)).toNat &&& 0xFFF8 = 0x0900 by cases f <;> decide⟩

theorem rdb (i : BitVec 5) : Statement (.rdb i) := fun _ =>
  ⟨rfl, show (mkWord 0x0A (i.setWidth 8)).toNat &&& 0xFFE0 = 0x0A00 by revert i; decide⟩

theorem wrb (i : BitVec 5) (v : Word) : Statement (.wrb i v) :=
  have key : ∀ a : BitVec 5, (mkWord 0x0B (a.setWidth 8)).toNat &&& 0xFFE0 = 0x0B00 := by decide
  fun _ => ⟨rfl, key i⟩

theorem opCode1000 : Statement .opCode1000 := fun _ => by decide

theorem opCode1001 : Statement .opCode1001 := fun _ => by decide

theorem opCode1002 : Statement .opCode1002 := fun _ => by decide

theorem opCode1003 : Statement .opCode1003 := fun _ => by decide

theorem opCode1004 : Statement .opCode1004 := fun _ => by decide

end Sys2Proof.Laws.EncodeFormat
end

