-- ==== Sys2Proof/Laws/Recv.lean ====
section
/-! SUPPORT. Everything the collection of `RECV` can do, said once: it misses, it blocks with the bytes so far stored, or it stores
the bytes that were missing and checks the frame. -/

namespace Sys2Proof.Machine

theorem rxNext_eq_head? (s : State) : rxNext s = s.unread.head? := by
  simp [rxNext, State.unread, List.head?_drop]

theorem unread_rxConsume (s : State) : (rxConsume s).unread = s.unread.tail := by
  simp [State.unread]

theorem unread_of_eq {s t : State} (h1 : t.rx = s.rx) (h2 : t.rxpos = s.rxpos) : t.unread = s.unread := by
  simp [State.unread, h1, h2]

/-- Bytes written one after the other to ascending offsets. -/
def Memory.writeSeq (m : Memory) (a : Nat) (l : List Byte) : Memory :=
  match l with
  | [] => m
  | b :: rest => Memory.writeSeq (Memory.write m a b) (a + 1) rest

theorem Memory.read?_writeSeq (l : List Byte) (m : Memory) (a b : Nat) :
    Memory.read? (Memory.writeSeq m a l) b = if a ≤ b ∧ b < a + l.length then l[b - a]? else Memory.read? m b := by
  induction l generalizing m a with
  | nil => simp [Memory.writeSeq, show ¬ (a ≤ b ∧ b < a) by omega]
  | cons x rest ih =>
    simp only [Memory.writeSeq, ih, Memory.read?_write, List.length_cons]
    by_cases hab : a = b
    · subst hab; simp
    · by_cases h1 : a + 1 ≤ b ∧ b < a + 1 + rest.length
      · have h2 : a ≤ b ∧ b < a + (rest.length + 1) := by omega
        have h3 : b - a = (b - (a + 1)) + 1 := by omega
        simp [h1, h2, h3]
      · rw [if_neg h1, if_neg hab, if_neg (show ¬ (a ≤ b ∧ b < a + (rest.length + 1)) by omega)]

theorem Memory.wf_writeSeq {m : Memory} {a : Nat} (l : List Byte) (h : Memory.wf m = true) (ha : a + l.length ≤ Config.packetSize) :
    Memory.wf (Memory.writeSeq m a l) = true := by
  induction l generalizing m a with
  | nil => exact h
  | cons x rest ih =>
    simp only [List.length_cons] at ha
    exact ih (Memory.wf_write x h (by omega)) (by omega)

/-- The state after `l` more bytes of the frame were read and stored. -/
def recvStoreAll (l : List Byte) (s : State) : State :=
  { s with buf := Memory.writeSeq s.buf s.rxcnt l, rxcnt := s.rxcnt + l.length, rxpos := s.rxpos + l.length }

@[simp] theorem recvStoreAll_nil (s : State) : recvStoreAll [] s = s := rfl

theorem recvStoreAll_cons (b : Byte) (l : List Byte) (s : State) :
    recvStoreAll (b :: l) s = recvStoreAll l (recvStore b (rxConsume s)) := by
  simp only [recvStoreAll, recvStore, setRxcnt, writeBuf, rxConsume, Memory.writeSeq, List.length_cons]
  congr 1 <;> omega

/-- The marker condition of a collection: the first byte of a frame is the marker (42_framesync.md R161 line 5). -/
def StartsWithMarker (s : State) (l : List Byte) : Prop := s.rxcnt = 0 → ∀ b, l.head? = some b → b = Config.sof

/-- Bytes at hand are stored one after the other. -/
theorem recvCollect_append {l more : List Byte} {s : State} (n : Nat) (hu : s.unread = l ++ more) (hm : StartsWithMarker s l) :
    recvCollect (l.length + n) s = recvCollect n (recvStoreAll l s) := by
  induction l generalizing s with
  | nil => simp
  | cons b rest ih =>
    have hnext : rxNext s = some b := by rw [rxNext_eq_head?, hu]; rfl
    have hcond : ¬ (s.rxcnt = 0 ∧ b ≠ Config.sof) := fun h => h.2 (hm h.1 b rfl)
    rw [List.length_cons, show rest.length + 1 + n = (rest.length + n) + 1 by omega, recvCollect, hnext]
    simp only [hcond, if_false]
    rw [recvStoreAll_cons]
    refine ih ?_ fun h => ?_
    · rw [unread_of_eq (s := rxConsume s) (by simp) (by simp), unread_rxConsume, hu]; rfl
    · simp at h

/-- With no byte to read, a collection stays where it is (42_framesync.md R165). -/
theorem recvCollect_blocked {n : Nat} {s : State} (h : rxNext s = none) : recvCollect (n + 1) s = s := by
  rw [recvCollect, h]

/-- A first byte that is not the marker ends the `RECV` (42_framesync.md R162). -/
theorem recvCollect_miss {n : Nat} {s : State} {b : Byte} (h : rxNext s = some b) (h0 : s.rxcnt = 0) (hb : b ≠ Config.sof) :
    recvCollect (n + 1) s = raise .miss (rxConsume s) := by
  rw [recvCollect, h]; simp [h0, hb]

/-- What a collection of `n` bytes does, in every case. -/
theorem recvCollect_cases (n : Nat) (s : State) :
    (∃ b, 0 < n ∧ s.rxcnt = 0 ∧ rxNext s = some b ∧ b ≠ Config.sof ∧ recvCollect n s = raise .miss (rxConsume s))
    ∨ (∃ l, l.length < n ∧ s.unread = l ∧ StartsWithMarker s l ∧ recvCollect n s = recvStoreAll l s)
    ∨ (∃ l more, l.length = n ∧ s.unread = l ++ more ∧ StartsWithMarker s l ∧ recvCollect n s = recvCheck (recvStoreAll l s)) := by
  by_cases hmiss : ∃ b, 0 < n ∧ s.rxcnt = 0 ∧ rxNext s = some b ∧ b ≠ Config.sof
  · obtain ⟨b, hn, h0, hb, hne⟩ := hmiss
    obtain ⟨m, rfl⟩ : ∃ m, n = m + 1 := ⟨n - 1, by omega⟩
    exact Or.inl ⟨b, hn, h0, hb, hne, recvCollect_miss hb h0 hne⟩
  · have hm : ∀ l more, s.unread = l ++ more → (l ≠ [] → 0 < n) → StartsWithMarker s l := by
      intro l more hu hl h0 b hb
      by_contra hne
      have hlne : l ≠ [] := by rintro rfl; simp at hb
      refine hmiss ⟨b, hl hlne, h0, ?_, hne⟩
      rw [rxNext_eq_head?, hu, List.head?_append, hb]; rfl
    by_cases hlen : s.unread.length < n
    · refine Or.inr (Or.inl ⟨s.unread, hlen, rfl, hm _ [] (by simp) (fun _ => by omega), ?_⟩)
      obtain ⟨m, rfl⟩ : ∃ m, n = s.unread.length + (m + 1) := ⟨n - s.unread.length - 1, by omega⟩
      rw [recvCollect_append (more := []) (m + 1) (by simp) (hm _ [] (by simp) (fun _ => by omega)), recvCollect_blocked]
      rw [rxNext_eq_head?]
      simp [State.unread, recvStoreAll]
      omega
    · refine Or.inr (Or.inr ⟨s.unread.take n, s.unread.drop n, by simp; omega, (List.take_append_drop n _).symm,
        hm _ _ (List.take_append_drop n _).symm ?_, ?_⟩)
      · intro h; by_contra h0; exact h (by simp [show n = 0 by omega])
      · have hl : (s.unread.take n).length = n := by simp; omega
        have := recvCollect_append (s := s) 0 (List.take_append_drop n s.unread).symm
          (hm _ _ (List.take_append_drop n _).symm (fun h => by by_contra h0; exact h (by simp [show n = 0 by omega])))
        rw [hl] at this
        simpa [recvCollect] using this

/-- The check ends the `RECV` with the frame's packet, or clears the packet and reports the failure (42_framesync.md R161, R163). -/
theorem recvCheck_cases (s : State) :
    (crc24 (contentOf (bufFrame s)) = (deserialize (bufFrame s)).crc ∧ recvCheck s = endOk (setPkt (deserialize (bufFrame s)) s))
    ∨ (crc24 (contentOf (bufFrame s)) ≠ (deserialize (bufFrame s)).crc
        ∧ recvCheck s = raise .crcFail (emit (.diag .crcFail) (setPkt Packet.cleared s))) := by
  by_cases h : crc24 (contentOf (bufFrame s)) = (deserialize (bufFrame s)).crc
  · exact Or.inl ⟨h, by simp [recvCheck, h]⟩
  · exact Or.inr ⟨h, by simp [recvCheck, h]⟩

theorem bufByte_recvStoreAll (l : List Byte) (s : State) (a : Nat) :
    bufByte (recvStoreAll l s) a = if s.rxcnt ≤ a ∧ a < s.rxcnt + l.length then byteAt l (a - s.rxcnt) else bufByte s a := by
  by_cases h : s.rxcnt ≤ a ∧ a < s.rxcnt + l.length
  · have h2 : a - s.rxcnt < l.length := by omega
    simp [bufByte, recvStoreAll, Memory.read?_writeSeq, h, h2, byteAt]
  · simp only [bufByte, recvStoreAll, Memory.read?_writeSeq, if_neg h]; rfl

/-- After a whole frame is stored from offset 0, `BUF` is that frame. -/
theorem bufFrame_recvStoreAll {l : List Byte} {s : State} (h0 : s.rxcnt = 0) (hl : l.length = Config.packetSize) :
    bufFrame (recvStoreAll l s) = l :=
  frame_ext (bufFrame_length _) hl fun i hi => by
    rw [byteAt_bufFrame _ hi, bufByte_recvStoreAll, if_pos (by omega), h0, Nat.sub_zero]

end Sys2Proof.Machine
end

