-- ==== Sys2Proof/Laws/Turns.lean ====
section
/-! SUPPORT. What one turn of each agent can do to the state, said once: a command or a `RECV` in progress, the core's turn, and the
other agents' turns. -/

namespace Sys2Proof.Machine

/-- What a command, or a `RECV` that goes on, leaves as it was, and how far it moves what it moves. -/
structure Progress (s t : State) : Prop where
  rx : t.rx = s.rx
  program : t.program = s.program
  rxMode : t.rxMode = s.rxMode
  schedule : t.schedule = s.schedule
  resetCount : t.resetCount = s.resetCount
  out : t.out = s.out ∨ t.out = s.out ++ [.diag .crcFail] ∨ t.out = s.out ++ [.txWrite (serialize s.pkt), .txFlush]
  rxpos_le : s.rxpos ≤ t.rxpos
  rxpos_bound : t.rxpos ≤ s.rxpos + Config.packetSize
  pc_ended : t.busy = false → t.pc = s.pc ∨ t.pc = s.pc + 1
  pc_busy : t.busy = true → t.pc = s.pc

theorem Progress.refl (s : State) : Progress s s where
  rx := rfl
  program := rfl
  rxMode := rfl
  schedule := rfl
  resetCount := rfl
  out := Or.inl rfl
  rxpos_le := Nat.le_refl _
  rxpos_bound := Nat.le_add_right _ _
  pc_ended := fun _ => Or.inl rfl
  pc_busy := fun _ => rfl

/-- A collection of at most 22 bytes, from a state in progress. -/
theorem progress_recvCollect {n : Nat} (s : State) (hn : n ≤ Config.packetSize) : Progress s (recvCollect n s) := by
  have hp : 0 < Config.packetSize := by decide
  rcases recvCollect_cases n s with ⟨b, h0, _, _, _, hc⟩ | ⟨l, hl, _, _, hc⟩ | ⟨l, m, hl, _, _, hc⟩
  · rw [hc]; constructor <;> simp <;> omega
  · rw [hc]; constructor <;> simp [recvStoreAll] <;> omega
  · rw [hc]
    rcases recvCheck_cases (recvStoreAll l s) with ⟨_, h⟩ | ⟨_, h⟩ <;> rw [h] <;> constructor <;> simp [recvStoreAll] <;> omega

theorem progress_recvContinue (s : State) : Progress s (recvContinue s) := progress_recvCollect s (Nat.sub_le _ _)

theorem progress_illegalCommand (s : State) : Progress s (illegalCommand s) := by
  constructor <;> simp [illegalCommand, raise, endCommand, Config.packetSize]

/-- An instruction that answers a next state. -/
theorem progress_exec {i : Instr} {s t : State} (h : exec i s = .next t) : Progress s t := by
  by_cases hi : isCommand i = true
  · have hb := exec_next_idle hi h
    cases i with
    | clr => rw [exec_clr_idle hb] at h; cases h; constructor <;> simp [Config.packetSize]
    | ser => rw [exec_ser_idle hb] at h; cases h; constructor <;> simp [serializeToBuf, Config.packetSize]
    | des => rw [exec_des_idle hb] at h; cases h; constructor <;> simp [Config.packetSize]
    | crc => rw [exec_crc_idle hb] at h; cases h; constructor <;> simp [Config.packetSize]
    | val => rw [exec_val_idle hb] at h; cases h; constructor <;> simp [Config.packetSize]
    | getf f => rw [exec_getf_idle hb] at h; cases h; constructor <;> simp [Config.packetSize]
    | setf f v => rw [exec_setf_idle hb] at h; cases h; constructor <;> simp [Config.packetSize]
    | send =>
      rw [exec_send_idle hb, sendFrame, transmitBuf_serializeToBuf] at h; cases h
      constructor <;> simp [serializeToBuf, flushTransport, Config.packetSize]
    | recv =>
      rw [exec_recv_idle hb] at h; cases h
      have p := progress_recvContinue (recvStart s)
      refine ⟨p.rx, p.program, p.rxMode, p.schedule, p.resetCount, ?_, p.rxpos_le, p.rxpos_bound, p.pc_ended, p.pc_busy⟩
      rcases recvCollect_cases (Config.packetSize - (recvStart s).rxcnt) (recvStart s) with
        ⟨b, _, _, _, _, hc⟩ | ⟨l, _, _, _, hc⟩ | ⟨l, m, _, _, _, hc⟩
      · rw [recvContinue, hc]; simp
      · rw [recvContinue, hc]; simp [recvStoreAll]
      · rw [recvContinue, hc]
        rcases recvCheck_cases (recvStoreAll l (recvStart s)) with ⟨_, h⟩ | ⟨_, h⟩ <;> rw [h] <;> simp [recvStoreAll]
    | rdb a =>
      cases ha : offsetLegal a with
      | true => rw [exec_rdb_idle hb ha] at h; cases h; constructor <;> simp [Config.packetSize]
      | false => rw [exec_rdb_illegal hb ha] at h; cases h; exact progress_illegalCommand s
    | wrb a v =>
      cases ha : offsetLegal a with
      | true => rw [exec_wrb_idle hb ha] at h; cases h; constructor <;> simp [Config.packetSize]
      | false => rw [exec_wrb_illegal hb ha] at h; cases h; exact progress_illegalCommand s
    | opCode1000 | opCode1001 | opCode1002 | opCode1003 | opCode1004 => simp [isCommand] at hi
  · cases i <;> first
      | exact absurd rfl hi
      | (injection h with h; subst h; exact Progress.refl _)

/-- Every instruction completes on an idle core. -/
theorem exec_total {s : State} (hb : s.busy = false) (i : Instr) : ∃ t, exec i s = .next t := by
  cases i with
  | opCode1000 | opCode1001 | opCode1002 | opCode1003 | opCode1004 => exact ⟨_, rfl⟩
  | clr => exact ⟨_, exec_clr_idle hb⟩
  | ser => exact ⟨_, exec_ser_idle hb⟩
  | des => exact ⟨_, exec_des_idle hb⟩
  | crc => exact ⟨_, exec_crc_idle hb⟩
  | val => exact ⟨_, exec_val_idle hb⟩
  | recv => exact ⟨_, exec_recv_idle hb⟩
  | send => exact ⟨_, exec_send_idle hb⟩
  | getf f => exact ⟨_, exec_getf_idle hb f⟩
  | setf f v => exact ⟨_, exec_setf_idle hb f v⟩
  | rdb a => exact ⟨_, command_idle hb _⟩
  | wrb a v => exact ⟨_, command_idle hb _⟩

/-- What the core does with the command presented to it. -/
theorem runPresented_cases (s : State) :
    (presented s = none ∧ runPresented s = .next s)
    ∨ (∃ c i, presented s = some c ∧ decodeCommand c = .ok i ∧ runPresented s = exec i s)
    ∨ (∃ c e, presented s = some c ∧ decodeCommand c = .error e ∧ runPresented s = .next (illegalCommand s)) := by
  cases hp : presented s with
  | none => exact Or.inl ⟨rfl, by simp [runPresented, hp]⟩
  | some c =>
    cases hd : decodeCommand c with
    | ok i => exact Or.inr (Or.inl ⟨c, i, rfl, hd, by simp [runPresented, hp, decode, hd]⟩)
    | error e => exact Or.inr (Or.inr ⟨c, e, rfl, hd, by simp [runPresented, hp, decode, hd]⟩)

theorem coreTurn_busy {s : State} (h : s.busy = true) : coreTurn s = .next (recvContinue s) := by simp [coreTurn, h]

theorem coreTurn_idle {s : State} (h : s.busy = false) : coreTurn s = runPresented s := by simp [coreTurn, h]

/-- A core's turn always gives a next state. -/
theorem coreTurn_total (s : State) : coreTurn s = .next (afterCoreTurn s) := by
  have key : ∃ t, coreTurn s = .next t := by
    cases hb : s.busy with
    | true => exact ⟨_, coreTurn_busy hb⟩
    | false =>
      rw [coreTurn_idle hb]
      rcases runPresented_cases s with ⟨_, h⟩ | ⟨c, i, _, _, h⟩ | ⟨c, e, _, _, h⟩
      · exact ⟨_, h⟩
      · rw [h]; exact exec_total hb i
      · exact ⟨_, h⟩
  obtain ⟨t, ht⟩ := key
  simp [afterCoreTurn, ht]

theorem progress_coreTurn {s t : State} (h : coreTurn s = .next t) : Progress s t := by
  cases hb : s.busy with
  | true => rw [coreTurn_busy hb] at h; cases h; exact progress_recvContinue s
  | false =>
    rw [coreTurn_idle hb] at h
    rcases runPresented_cases s with ⟨_, h'⟩ | ⟨c, i, _, _, h'⟩ | ⟨c, e, _, _, h'⟩ <;> rw [h'] at h
    · cases h; exact Progress.refl s
    · exact progress_exec h
    · cases h; exact progress_illegalCommand s

/-- A dispatch turn leaves the state as it is: a wire value of `opCode` changes nothing in the core. -/
theorem dispatchTurn_eq (s : State) : dispatchTurn s = .next s := by
  unfold dispatchTurn
  split
  · rfl
  · simp only [decode, decodeWireOpCode]
    split_ifs <;> rfl

theorem rxTimeoutTurn_cases (s : State) :
    (s.busy = true ∧ rxNext s = none ∧ s.rxMode = .timeout ∧ rxTimeoutTurn s = raise .timeout s)
    ∨ ((s.busy = false ∨ rxNext s ≠ none ∨ s.rxMode ≠ .timeout) ∧ rxTimeoutTurn s = s) := by
  unfold rxTimeoutTurn blocked
  by_cases h : (s.busy && (rxNext s).isNone && decide (s.rxMode = .timeout)) = true
  · simp only [Bool.and_eq_true, Option.isNone_iff_eq_none, decide_eq_true_eq] at h
    exact Or.inl ⟨h.1.1, h.1.2, h.2, by simp [h]⟩
  · refine Or.inr ⟨?_, by rw [if_neg h]⟩
    simp only [Bool.and_eq_true, Option.isNone_iff_eq_none, decide_eq_true_eq, not_and_or] at h
    rcases h with (h | h) | h
    · exact Or.inl (by simpa using h)
    · exact Or.inr (Or.inl h)
    · exact Or.inr (Or.inr h)

theorem step_nil {s : State} (h : s.schedule = []) : step s = coreTurn s := by simp [step, nextTurn, h, takeTurn]

theorem step_cons {s : State} {t : Turn} {rest : List Turn} (h : s.schedule = t :: rest) :
    step s = takeTurn t { s with schedule := rest } := by simp [step, nextTurn, h]

/-- On a schedule with the core first, the step is the core's turn on the schedule as it was. -/
theorem step_coreFirst {s : State} {rest : List Turn} (h : s.schedule = coreFirst rest) : step s = coreTurn { s with schedule := rest } := by
  cases rest with
  | nil => rw [step_nil h]; simp only [coreFirst] at h; rw [← h]
  | cons t rest => exact step_cons h

/-- A placed command stands at its index. -/
theorem getElem?_placeCommand (c : Command) (p : List Command) (n : Nat) : (placeCommand p n c)[n]? = some c := by
  induction n generalizing p with
  | zero => cases p <;> rfl
  | succ n ih => cases p <;> simp [placeCommand, ih]

end Sys2Proof.Machine
end

