-- ==== Sys2Proof/Tests/Slice0.lean ====
section
/-! SUPPORT. Tests: expected values from spec/95_test_vectors.md, spec/30_encoding.md and hand calculation from them; and, for every
statement with hypotheses, a state and operands that meet them. -/

namespace Sys2Proof.Tests

open Sys2Proof.Machine

/-! ### States built for the tests -/

/-- Frame V10 of 95_test_vectors.md. -/
def frameV10 : List Byte :=
  [0x7E, 0x00, 0x00, 0x00, 0x07, 0x00, 0x00, 0x00, 0x03, 0x00, 0x00, 0x03, 0xE8, 0x00, 0x00, 0x00, 0x00, 0x00, 0x00, 0xC1, 0x8B, 0xB1]

/-- Frame V11. -/
def frameV11 : List Byte :=
  [0x7E, 0x00, 0x00, 0x00, 0x01, 0x00, 0x00, 0x00, 0x01, 0x00, 0x00, 0x03, 0xEC, 0x05, 0x00, 0x00, 0x00, 0x02, 0x00, 0xA2, 0x1D, 0x37]

/-- The 22 bytes of V53: V10 with offset 18 changed to 01. -/
def frameV53 : List Byte :=
  [0x7E, 0x00, 0x00, 0x00, 0x07, 0x00, 0x00, 0x00, 0x03, 0x00, 0x00, 0x03, 0xE8, 0x00, 0x00, 0x00, 0x00, 0x00, 0x01, 0xC1, 0x8B, 0xB1]

/-- The 22 bytes of V54: V10 with offset 21 changed to B0. -/
def frameV54 : List Byte :=
  [0x7E, 0x00, 0x00, 0x00, 0x07, 0x00, 0x00, 0x00, 0x03, 0x00, 0x00, 0x03, 0xE8, 0x00, 0x00, 0x00, 0x00, 0x00, 0x00, 0xC1, 0x8B, 0xB0]

/-- The packet of V11, with any `crc`. -/
def packetV11 (c : Crc) : Packet := ⟨1, 1, 1004, 5, 0, 512, c⟩

/-- Reset, then this packet. -/
def holding (p : Packet) : State := setPkt p State.reset

/-- Reset, then this frame image in `BUF`. -/
def buffered (l : List Byte) : State := writeFrame l State.reset

/-- Reset, with these bytes waiting in the transport. -/
def waiting (l : List Byte) : State := { State.reset with rx := l }

/-- Reset, with one command presented. -/
def presenting (cw : CmdWord) (wd : Word) : State := { State.reset with program := [⟨cw, wd⟩] }

/-- A `RECV` that has read the marker and waits for more, in the given mode. -/
def receiving (m : RxTimeoutMode) : State :=
  { State.reset with program := [⟨0x0600, 0⟩], busy := true, rxcnt := 1, buf := [(0, 0x7E)], rx := [0x7E], rxpos := 1, rxMode := m }

/-- It meets the invariant. -/
theorem receiving_inv (m : RxTimeoutMode) (more : List Byte) (turns : List Turn) :
    State.Inv { receiving m with rx := 0x7E :: more, schedule := turns } where
  buf := rfl
  rxpos := by simp [receiving]
  rxcnt := by simp [receiving, Config.packetSize]
  pc := by simp [receiving, State.reset]
  receiving _ :=
    { cleared := rfl
      missing := by simp [receiving, Config.packetSize]
      consumed := by simp [receiving]
      presented := by simp [receiving, State.reset]
      received := by intro k hk; obtain rfl : k = 0 := Nat.lt_one_iff.1 hk; rfl
      marker := fun _ => rfl }

/-! ### Well-formedness: each check refuses an ill-formed term -/

theorem test_wf_rdb_22_refused : (Instr.rdb 22).wf = false := by decide
theorem test_wf_rdb_21_accepted : (Instr.rdb 21).wf = true := by decide
theorem test_wf_wrb_31_refused : (Instr.wrb 31 0).wf = false := by decide
theorem test_wf_wrb_0_accepted : (Instr.wrb 0 0xFFFFFFFF).wf = true := by decide

/-! ### Decoding: the bit patterns of 30_encoding.md R90 and the values of R85 -/

theorem test_decode_clr : decodeTableWord 16 0b0000000100000000 = some .clr := by decide
theorem test_decode_ser : decodeTableWord 16 0b0000001000000000 = some .ser := by decide
theorem test_decode_des : decodeTableWord 16 0b0000001100000000 = some .des := by decide
theorem test_decode_crc : decodeTableWord 16 0b0000010000000000 = some .crc := by decide
theorem test_decode_val : decodeTableWord 16 0b0000010100000000 = some .val := by decide
theorem test_decode_recv : decodeTableWord 16 0b0000011000000000 = some .recv := by decide
theorem test_decode_send : decodeTableWord 16 0b0000011100000000 = some .send := by decide
theorem test_decode_getf : decodeTableWord 16 0b0000100000000011 = some (.getf .pin) := by decide
theorem test_decode_setf : decodeCommand ⟨0b0000100100000101, 512⟩ = .ok (.setf .data 512) := by decide
theorem test_decode_rdb : decodeTableWord 16 0b0000101000001100 = some (.rdb 12) := by decide
theorem test_decode_wrb : decodeCommand ⟨0b0000101100010010, 1⟩ = .ok (.wrb 18 1) := by decide
theorem test_decode_op_code_1000 : decodeTableWord 32 0b00000000000000000000001111101000 = some .opCode1000 := by decide
theorem test_decode_op_code_1001 : decodeTableWord 32 0b00000000000000000000001111101001 = some .opCode1001 := by decide
theorem test_decode_op_code_1002 : decodeTableWord 32 0b00000000000000000000001111101010 = some .opCode1002 := by decide
theorem test_decode_op_code_1003 : decodeTableWord 32 0b00000000000000000000001111101011 = some .opCode1003 := by decide
theorem test_decode_op_code_1004 : decodeTableWord 32 0b00000000000000000000001111101100 = some .opCode1004 := by decide

/-- V40 to V49: the illegal words. -/
theorem test_illegal_words :
    [0x0000, 0x0101, 0x0807, 0x0907, 0x0808, 0x0A16, 0x0B1F, 0x0A20, 0x0C00, 0xFFFF].map (decodeTableWord 16) = List.replicate 10 none := by
  decide

/-- "Nearest legal neighbours" of V40 to V49. -/
theorem test_legal_neighbours :
    ([0x0100, 0x0806, 0x0906, 0x0A15, 0x0B15, 0x0B00].map (decodeTableWord 16)).all Option.isSome = true := by decide

/-- Each value of R85 is the word of its row; the word before the first and after the last are no instructions. -/
theorem test_wire_values_around : decodeTableWord 32 999 = none ∧ decodeTableWord 32 1005 = none := by decide

/-! ### One step of each instruction -/

/-- S6: `CLR` on the packet of the example of 41_marshal.md R131. -/
theorem test_clr : (afterExec .clr (holding ⟨7, 3, 1000, 0, 0, 1, 0xC18BB1⟩)).pkt = ⟨0, 0, 0, 0, 0, 0, 0⟩ := by decide

/-- V10, "`SER` gives frame V10 and leaves `crc` = 0x123456". -/
theorem test_ser : bufFrame (afterExec .ser (holding ⟨7, 3, 1000, 0, 0, 0, 0x123456⟩)) = frameV10
    ∧ (afterExec .ser (holding ⟨7, 3, 1000, 0, 0, 0, 0x123456⟩)).pkt.crc = 0x123456
    ∧ (afterExec .ser (holding ⟨7, 3, 1000, 0, 0, 0, 0x123456⟩)).res = 22 := by decide +kernel

/-- V11 as `DES`, and with offset 0 replaced by FF "the same seven values". -/
theorem test_des : (afterExec .des (buffered frameV11)).pkt = packetV11 0xA21D37
    ∧ (afterExec .des (buffered (0xFF :: frameV11.tail))).pkt = packetV11 0xA21D37 := by decide +kernel

/-- `CRC` with `BUF` = frame V10; and with `BUF[0]` changed to 00 in frame V11. -/
theorem test_crc : (afterExec .crc (buffered frameV10)).res = 0x00C18BB1
    ∧ (afterExec .crc (buffered (0x00 :: frameV11.tail))).res = 0x00A80853 := by decide +kernel

/-- V20 and V21. -/
theorem test_val : (afterExec .val (holding (packetV11 0xA21D37))).res = 1
    ∧ (afterExec .val (holding ⟨1, 1, 1004, 5, 0, 513, 0xA21D37⟩)).res = 0 := by decide +kernel

/-- V50: an acceptable frame. -/
theorem test_recv_ok : (afterExec .recv (waiting frameV11)).pkt = packetV11 0xA21D37
    ∧ (afterExec .recv (waiting frameV11)).rc = .ok ∧ (afterExec .recv (waiting frameV11)).rxpos = 22 := by decide +kernel

/-- V61: a marker in noise swallows the start of a frame; 22 bytes are consumed, the packet is cleared, one `Diag`. -/
theorem test_recv_false_marker : (afterExec .recv (waiting (0x7E :: 0x22 :: 0x33 :: frameV11))).rc = .crcFail
    ∧ (afterExec .recv (waiting (0x7E :: 0x22 :: 0x33 :: frameV11))).rxpos = 22
    ∧ (afterExec .recv (waiting (0x7E :: 0x22 :: 0x33 :: frameV11))).pkt = Packet.cleared
    ∧ (afterExec .recv (waiting (0x7E :: 0x22 :: 0x33 :: frameV11))).out = [.diag .crcFail] := by decide +kernel

/-- V70: the events of `SEND`, with any `crc` in the packet. -/
theorem test_send : (afterExec .send (holding (packetV11 0x123456))).out = [.txWrite frameV11, .txFlush] := by decide +kernel

/-- V73: "the garbage is not sent; `BUF` is overwritten first". -/
theorem test_send_garbage : (afterExec .send (setPkt (packetV11 0) (buffered (List.replicate 22 0xAA)))).out = [.txWrite frameV11, .txFlush]
    ∧ bufFrame (afterExec .send (setPkt (packetV11 0) (buffered (List.replicate 22 0xAA)))) = frameV11 := by decide +kernel

/-- V34: `GETF` 2 and 6. -/
theorem test_getf : (afterExec (.getf .opCode) (holding (packetV11 0xA21D37))).res = 0x000003EC
    ∧ (afterExec (.getf .crc) (holding (packetV11 0xA21D37))).res = 0x00A21D37 := by decide

/-- V30 and V31. -/
theorem test_setf : (afterExec (.setf .pin 0x1234) State.reset).pkt.pin = 0x34
    ∧ (afterExec (.setf .crc 0xAABBCCDD) State.reset).pkt.crc = 0xBBCCDD := by decide

/-- V35. -/
theorem test_rdb : (afterExec (.rdb 0) (buffered frameV10)).res = 0x7E ∧ (afterExec (.rdb 12) (buffered frameV10)).res = 0xE8
    ∧ (afterExec (.rdb 21) (buffered frameV10)).res = 0xB1 := by decide +kernel

/-- V36: "stores 01 at offset 18 (upper bits dropped)". -/
theorem test_wrb : bufFrame (afterExec (.wrb 18 0xFFFFFF01) (buffered frameV10)) = frameV53 := by decide +kernel

/-- S1: the bytes of each operation code at offsets 9 to 12; a dispatch turn leaves the core as it is. -/
theorem test_op_code_1000 : afterExec .opCode1000 (holding ⟨0, 0, 1000, 0, 0, 0, 0⟩) = holding ⟨0, 0, 1000, 0, 0, 0, 0⟩
    ∧ ((serialize ⟨0, 0, 1000, 0, 0, 0, 0⟩).drop 9).take 4 = [0x00, 0x00, 0x03, 0xE8] := ⟨rfl, by decide +kernel⟩
theorem test_op_code_1001 : afterExec .opCode1001 (holding ⟨0, 0, 1001, 0, 0, 0, 0⟩) = holding ⟨0, 0, 1001, 0, 0, 0, 0⟩
    ∧ ((serialize ⟨0, 0, 1001, 0, 0, 0, 0⟩).drop 9).take 4 = [0x00, 0x00, 0x03, 0xE9] := ⟨rfl, by decide +kernel⟩
theorem test_op_code_1002 : afterExec .opCode1002 (holding ⟨0, 0, 1002, 0, 0, 0, 0⟩) = holding ⟨0, 0, 1002, 0, 0, 0, 0⟩
    ∧ ((serialize ⟨0, 0, 1002, 0, 0, 0, 0⟩).drop 9).take 4 = [0x00, 0x00, 0x03, 0xEA] := ⟨rfl, by decide +kernel⟩
theorem test_op_code_1003 : afterExec .opCode1003 (holding ⟨0, 0, 1003, 0, 0, 0, 0⟩) = holding ⟨0, 0, 1003, 0, 0, 0, 0⟩
    ∧ ((serialize ⟨0, 0, 1003, 0, 0, 0, 0⟩).drop 9).take 4 = [0x00, 0x00, 0x03, 0xEB] := ⟨rfl, by decide +kernel⟩
theorem test_op_code_1004 : afterExec .opCode1004 (holding ⟨0, 0, 1004, 0, 0, 0, 0⟩) = holding ⟨0, 0, 1004, 0, 0, 0, 0⟩
    ∧ ((serialize ⟨0, 0, 1004, 0, 0, 0, 0⟩).drop 9).take 4 = [0x00, 0x00, 0x03, 0xEC] := ⟨rfl, by decide +kernel⟩

/-- 40_crc.md R110, the worked example: the eight shift steps on the byte 7E. -/
theorem test_crc_worked_example :
    (List.range 9).map (fun n => crcShifts n 0xC904CE)
      = [0xC904CE, 0x144567, 0x288ACE, 0x51159C, 0xA22B38, 0xC21A8B, 0x0279ED, 0x04F3DA, 0x09E7B4] := by decide +kernel

/-- V14 in both directions: byte order, the largest legal pin, marker bytes in the content. -/
theorem test_v14 :
    serialize ⟨0x01020304, 0x05060708, 1002, 52, 1, 0x7E7E7E7E, 0⟩
      = [0x7E, 0x01, 0x02, 0x03, 0x04, 0x05, 0x06, 0x07, 0x08, 0x00, 0x00, 0x03, 0xEA, 0x34, 0x01, 0x7E, 0x7E, 0x7E, 0x7E, 0x9C, 0x0D, 0x02]
    ∧ (deserialize (serialize ⟨0x01020304, 0x05060708, 1002, 52, 1, 0x7E7E7E7E, 0⟩)).crc = 0x9C0D02 := by decide +kernel

/-- `SETF opCode, 1000` with the field by its number, and a hexadecimal value (30_encoding.md R97). -/
theorem test_assemble_by_number :
    assembleLine ['S', 'E', 'T', 'F', ' ', '2', ',', ' ', '0', 'x', '3', 'E', '8'] = some [.setf .opCode 1000] := by decide +kernel

/-- "A buffer offset is a decimal number 0 to 21": 22 is refused. -/
theorem test_assemble_offset_22_refused : assembleLine ['R', 'D', 'B', ' ', '2', '2'] = none := by decide +kernel

/-! ### Witnesses: for each statement with hypotheses, a state and operands that meet them -/

/-- DecodeOfEncode: well-formed instructions at the ends of the operand ranges. -/
theorem witness_decode_of_encode : (Instr.rdb 0).wf = true ∧ (Instr.rdb 21).wf = true ∧ (Instr.wrb 21 0xFFFFFFFF).wf = true
    ∧ (Instr.getf .crc).wf = true ∧ Instr.opCode1004.wf = true := by decide

/-- EncodeOfDecode. -/
theorem witness_encode_of_decode : decodeCommand ⟨0x0906, 0xFFFFFFFF⟩ = .ok (.setf .crc 0xFFFFFFFF)
    ∧ decodeCommand ⟨0x0B15, 7⟩ = .ok (.wrb 21 7) ∧ decodeWireOpCode 1000 = .ok .opCode1000 := by decide

/-- IllegalWordsOnlySetRc: an idle core, the all-zero word presented; the words next to the legal ranges are not listed. -/
theorem witness_illegal_words : (presenting 0x0000 0).busy = false ∧ presented (presenting 0x0000 0) = some ⟨0x0000, 0⟩
    ∧ (0x0000 : CmdWord) ∉ legalWords ∧ (0x0A16 : CmdWord) ∉ legalWords ∧ (0x0A15 : CmdWord) ∈ legalWords := by decide

/-- OperandUse: a command without a value operand, and values that differ above the kept bits only. -/
theorem witness_operand_use : decodeCommand ⟨0x0100, 5⟩ = .ok .clr ∧ decodeCommand ⟨0x0903, 0x1234⟩ = .ok (.setf .pin 0x1234)
    ∧ decodeCommand ⟨0x0B00, 9⟩ = .ok (.wrb 0 9)
    ∧ (0x1234 : Word).toNat % 2 ^ fieldWidth .pin = (0x34 : Word).toNat % 2 ^ fieldWidth .pin
    ∧ (0xAABBCCDD : Word).toNat % 2 ^ fieldWidth .crc = (0xBBCCDD : Word).toNat % 2 ^ fieldWidth .crc
    ∧ (0xFFFFFF01 : Word).toNat % 256 = (1 : Word).toNat % 256 := by decide

/-- CrcResidue: a 22-byte sequence that is acceptable and one that is not. -/
theorem witness_crc_residue : frameV10.length = 22 ∧ acceptable frameV10 = true ∧ frameV54.length = 22 ∧ acceptable frameV54 = false := by
  decide +kernel

/-- CrcDetectsOneAndTwoFlips: the content of V10, the first and the last of the 152 bits. -/
theorem witness_crc_detects : (frameV10.take 19).length = 19 ∧ 0 < 152 ∧ 151 < 152 ∧ (0 : Nat) ≠ 151 := by decide

/-- FieldFormAgreesWithBufferForm: an idle core with the marker in `BUF[0]`, and one without. -/
theorem witness_field_form : (buffered frameV11).busy = false ∧ bufByte (buffered frameV11) 0 = 0x7E
    ∧ (buffered (0x00 :: frameV11.tail)).busy = false ∧ bufByte (buffered (0x00 :: frameV11.tail)) 0 ≠ 0x7E := by decide

/-- SerializeThenDeserialize: an idle core whose `crc` is not the right one. -/
theorem witness_serialize_then_deserialize : (holding (packetV11 0x123456)).busy = false := rfl

/-- DeserializeThenSerialize: a 22-byte image that is acceptable, one that is not, an idle core with the latter. -/
theorem witness_deserialize_then_serialize : frameV11.length = 22 ∧ acceptable frameV11 = true ∧ frameV53.length = 22
    ∧ acceptable frameV53 = false ∧ (buffered frameV53).busy = false := by decide +kernel

/-- IntegrityLaw. -/
theorem witness_integrity_law : (holding (packetV11 0)).busy = false := rfl

/-- LocalCommandsIdempotent: each end of the nine, answered by an idle core. -/
theorem witness_local_commands : isLocalCommand .clr = true ∧ exec .clr State.reset = .next (afterExec .clr State.reset)
    ∧ isLocalCommand (.wrb 21 1) = true ∧ exec (.wrb 21 1) State.reset = .next (afterExec (.wrb 21 1) State.reset)
    ∧ isLocalCommand (.rdb 31) = true ∧ exec (.rdb 31) State.reset = .next (afterExec (.rdb 31) State.reset) :=
  ⟨rfl, rfl, rfl, rfl, rfl, rfl⟩

/-- ByteViewIsBigEndian: both ends of the offsets of `id`. -/
theorem witness_byte_view : (holding (packetV11 0)).busy = false ∧ 1 ≤ (1 : BitVec 5).toNat ∧ (4 : BitVec 5).toNat ≤ 4 := by decide

/-- ClrResult, SerResult, DesResult, CrcResult, SendResult, SendAgainSendsTheSame, OnlyAcceptableFramesAreSent: an idle core. -/
theorem witness_idle_core : (holding (packetV11 0)).busy = false ∧ (buffered frameV10).busy = false := ⟨rfl, rfl⟩

/-- ValResult: V20 meets the clause for 1, the cleared packet the clause for 0. -/
theorem witness_val_result : (holding (packetV11 0xA21D37)).busy = false
    ∧ crc24 ((serialize (packetV11 0xA21D37)).take 19) = (packetV11 0xA21D37).crc
    ∧ crc24 ((serialize Packet.cleared).take 19) ≠ Packet.cleared.crc := by decide +kernel

/-- GetfResult and SetfResult: the first argument past the fields, presented to an idle core. -/
theorem witness_field_access : 6 < (7 : Byte).toNat ∧ (presenting (0x0800 + (7 : Byte).setWidth 16) 0).busy = false
    ∧ presented (presenting (0x0800 + (7 : Byte).setWidth 16) 0) = some ⟨0x0800 + (7 : Byte).setWidth 16, 0⟩
    ∧ presented (presenting (0x0900 + (7 : Byte).setWidth 16) 1) = some ⟨0x0900 + (7 : Byte).setWidth 16, 1⟩ := by decide

/-- RdbResult, WrbResult and IllegalOffsetOnlySetsRc: offsets 21 and 22 on either side of the limit, the latter presented to an idle core. -/
theorem witness_buffer_access : (21 : Byte).toNat ≤ 21 ∧ 21 < (22 : Byte).toNat ∧ (21 : BitVec 5).toNat ≤ 21 ∧ 21 < (22 : BitVec 5).toNat
    ∧ (buffered frameV10).busy = false
    ∧ decodeCommand ⟨0x0A15, 0⟩ = .ok (.rdb 21) ∧ decodeCommand ⟨0x0B15, 3⟩ = .ok (.wrb 21 3)
    ∧ presented (presenting (0x0A00 + (22 : Byte).setWidth 16) 0) = some ⟨0x0A00 + (22 : Byte).setWidth 16, 0⟩
    ∧ presented (presenting (0x0B00 + (22 : Byte).setWidth 16) 1) = some ⟨0x0B00 + (22 : Byte).setWidth 16, 1⟩ := by decide

/-- OnlyAcceptableFramesAreSent: a state that has sent a frame and steps on. -/
theorem witness_only_acceptable : State.SentAcceptable { State.reset with out := [.txWrite frameV11, .txFlush] }
    ∧ step { State.reset with out := [.txWrite frameV11, .txFlush] } = .next { State.reset with out := [.txWrite frameV11, .txFlush] } :=
  ⟨fun bytes h => by
    have hb : bytes = frameV11 := by simpa [State.reset] using h
    rw [hb]; decide +kernel, rfl⟩

/-- RecvMiss: V52, one bit off the marker. -/
theorem witness_recv_miss : (waiting [0x7F]).busy = false ∧ rxNext (waiting [0x7F]) = some 0x7F ∧ (0x7F : Byte) ≠ 0x7E
    ∧ (afterExec .recv (waiting [0x7F])).rc = .miss := by decide

/-- RecvAcceptsFrame: V50, with nothing and with something after the frame. -/
theorem witness_recv_accepts : (waiting frameV11).busy = false ∧ (waiting frameV11).unread = frameV11 ++ []
    ∧ (waiting (frameV11 ++ [0x7E])).unread = frameV11 ++ [0x7E] ∧ acceptable frameV11 = true := by decide +kernel

/-- RecvRejectsFrame: V53 and V54. -/
theorem witness_recv_rejects : (waiting frameV53).busy = false ∧ (waiting frameV53).unread = frameV53 ++ [] ∧ frameV53.length = 22
    ∧ byteAt frameV53 0 = 0x7E ∧ acceptable frameV53 = false ∧ (waiting frameV54).unread = frameV54 ++ [] ∧ frameV54.length = 22
    ∧ byteAt frameV54 0 = 0x7E ∧ acceptable frameV54 = false := by decide +kernel

/-- RecvBlocks: V60 (nothing), V59 (ten bytes), and 21 bytes, the most that still block. -/
theorem witness_recv_blocks : (waiting []).busy = false ∧ (waiting []).unread = []
    ∧ (waiting (frameV11.take 10)).unread = frameV11.take 10 ∧ byteAt (frameV11.take 10) 0 = 0x7E
    ∧ (waiting (frameV11.take 21)).unread = frameV11.take 21 ∧ (frameV11.take 21).length < 22 ∧ byteAt (frameV11.take 21) 0 = 0x7E := by
  decide +kernel

/-- InterruptedRecvEqualsUninterrupted: V59 has blocked. -/
theorem witness_interrupted_recv : exec .recv (waiting (frameV11.take 10)) = .next (afterExec .recv (waiting (frameV11.take 10)))
    ∧ (afterExec .recv (waiting (frameV11.take 10))).busy = true ∧ (afterExec .recv (waiting (frameV11.take 10))).rxcnt = 10 :=
  ⟨rfl, by decide +kernel, by decide +kernel⟩

/-- RecvTimeout, first clause: a `RECV` that has the marker and nothing more, in mode `timeout`. -/
theorem witness_recv_timeout : ∃ s : State, s.schedule = [.rxTimeout] ∧ s.Inv ∧ s.busy = true ∧ rxNext s = none ∧ s.rxMode = .timeout
    ∧ s.rxcnt = 1 :=
  ⟨{ receiving .timeout with rx := [0x7E], schedule := [.rxTimeout] }, rfl, receiving_inv .timeout [] _, rfl, rfl, rfl, rfl⟩

/-- RecvTimeout, second clause: mode `block`, and mode `timeout` with a byte to read. -/
theorem witness_recv_no_timeout : (∃ s : State, s.schedule = [.rxTimeout] ∧ s.Inv ∧ s.rxMode = .block)
    ∧ (∃ s : State, s.schedule = [.rxTimeout] ∧ s.Inv ∧ rxNext s ≠ none ∧ s.rxMode = .timeout) :=
  ⟨⟨{ receiving .block with rx := [0x7E], schedule := [.rxTimeout] }, rfl, receiving_inv .block [] _, rfl⟩,
    ⟨{ receiving .timeout with rx := [0x7E, 0x00], schedule := [.rxTimeout] }, rfl, receiving_inv .timeout [0x00] _,
      by simp [rxNext, receiving], rfl⟩⟩

/-- RecvBytesConsumed and RecvFrame: a `RECV` that ends with each code it ends with by itself, and one that blocks. -/
theorem witness_recv_outcomes : exec .recv (waiting frameV11) = .next (afterExec .recv (waiting frameV11))
    ∧ (afterExec .recv (waiting frameV11)).rc = .ok ∧ (afterExec .recv (waiting frameV53)).rc = .crcFail
    ∧ (afterExec .recv (waiting [0x00])).rc = .miss ∧ (afterExec .recv (waiting [])).busy = true :=
  ⟨rfl, by decide +kernel, by decide +kernel, by decide +kernel, by decide +kernel⟩

/-- RecvDependsOnlyOnStream: two idle cores with different packets and results and the same bytes to read: a whole frame, and ten
bytes of one. -/
theorem witness_recv_depends : (waiting frameV11).busy = false
    ∧ ({ holding (packetV11 7) with rx := 0x55 :: frameV11, rxpos := 1, rc := .miss, res := 9 } : State).busy = false
    ∧ (waiting frameV11).unread = ({ holding (packetV11 7) with rx := 0x55 :: frameV11, rxpos := 1, rc := .miss, res := 9 } : State).unread
    ∧ (waiting (frameV11.take 10)).unread = ({ holding (packetV11 7) with rx := 0x55 :: frameV11.take 10, rxpos := 1 } : State).unread
    ∧ (afterExec .recv (waiting frameV11)).busy = false ∧ (afterExec .recv (waiting frameV11)).rc ≠ .miss
    ∧ (afterExec .recv (waiting (frameV11.take 10))).busy = true := by
  decide +kernel

/-- FramingResync: program P2, and no noise at all. -/
theorem witness_framing_resync : (waiting (0x00 :: 0x55 :: frameV11)).busy = false ∧ (∀ b ∈ ([0x00, 0x55] : List Byte), b ≠ 0x7E)
    ∧ acceptable frameV11 = true ∧ (waiting (0x00 :: 0x55 :: frameV11)).unread = [0x00, 0x55] ++ (frameV11 ++ [])
    ∧ (waiting frameV11).unread = [] ++ (frameV11 ++ []) := by decide +kernel

/-- CorruptionRejected: one flip (V53), two flips, and a change of the integrity field alone (V54). -/
theorem witness_corruption : acceptable frameV10 = true ∧ (waiting frameV53).busy = false ∧ (waiting frameV53).unread = frameV53 ++ []
    ∧ frameV53 = flipBit 144 frameV10 ∧ (8 ≤ 144 ∧ 144 < 152)
    ∧ (waiting (flipBit 8 (flipBit 151 frameV10))).unread = flipBit 8 (flipBit 151 frameV10) ++ []
    ∧ frameV54.length = 22 ∧ frameV54.take 19 = frameV10.take 19 ∧ frameV54 ≠ frameV10 ∧ (waiting frameV54).unread = frameV54 ++ [] := by
  decide +kernel

/-- OpCodeIsCarried: packets with the first and the last value of R85, and a dispatch turn. -/
theorem witness_op_code_is_carried : (⟨0, 0, 1000, 0, 0, 0, 0⟩ : Packet).opCode = 1000 ∧ (packetV11 0).opCode = 1004
    ∧ ({ State.reset with schedule := [.dispatch] } : State).schedule = .dispatch :: [] := ⟨rfl, rfl, rfl⟩

/-- StepRunsDecoded: a command presented on an empty schedule, the same on the core's turn, and a dispatch turn. -/
theorem witness_step_runs_decoded : (presenting 0x0100 0).busy = false ∧ (presenting 0x0100 0).schedule = []
    ∧ presented (presenting 0x0100 0) = some ⟨0x0100, 0⟩ ∧ decode (.command ⟨0x0100, 0⟩) = .ok .clr
    ∧ ({ presenting 0x0100 0 with schedule := [.core] } : State).schedule = .core :: []
    ∧ ({ holding (packetV11 0) with schedule := [.dispatch] } : State).schedule = .dispatch :: []
    ∧ decode (.wireOpCode (packetV11 0).opCode) = .ok .opCode1004 := by decide

/-- PlacedWordRunsNext. -/
theorem witness_placed_word : decodeTableWord 16 0x0100 = some .clr ∧ decodeTableWord 16 0x0B15 = some (.wrb 21 0)
    ∧ decodeTableWord 32 0x000003EC = some .opCode1004 := by decide

/-- PcCountsEndedCommands: a command that ends, a `RECV` that blocks, one that goes on, and another agent's turn. -/
theorem witness_pc_counts : coreTurn (presenting 0x0100 0) = .next (afterCoreTurn (presenting 0x0100 0))
    ∧ (afterCoreTurn (presenting 0x0100 0)).busy = false
    ∧ coreTurn (presenting 0x0600 0) = .next (afterCoreTurn (presenting 0x0600 0)) ∧ (afterCoreTurn (presenting 0x0600 0)).busy = true
    ∧ (receiving .block).busy = true ∧ coreTurn (receiving .block) = .next (afterCoreTurn (receiving .block))
    ∧ (afterCoreTurn { receiving .block with rx := frameV11 }).busy = false
    ∧ takeTurn (.rxByte 0x7E) State.reset = .next (deliver 0x7E State.reset) :=
  ⟨rfl, by decide +kernel, rfl, by decide +kernel, rfl, rfl, by decide +kernel, rfl⟩

/-- BusyAcceptsNoCommand. -/
theorem witness_busy : (receiving .block).busy = true ∧ isCommand .clr = true
    ∧ coreTurn (receiving .block) = .next (afterCoreTurn (receiving .block)) := ⟨rfl, rfl, rfl⟩

/-- StepKeepsInv: a `RECV` in progress on the core's turn, with a byte to read. -/
theorem witness_step_keeps_inv : ∃ s t : State, s.Inv ∧ s.busy = true ∧ step s = .next t ∧ t.rxcnt = 2 :=
  ⟨{ receiving .block with rx := [0x7E, 0x22], schedule := [] }, _, receiving_inv .block [0x22] [], rfl, rfl, by decide +kernel⟩

/-- ResetTurnResult: reset in the middle of a `RECV`. -/
theorem witness_reset_turn : ({ receiving .block with schedule := [.reset] } : State).schedule = .reset :: []
    ∧ ({ receiving .block with schedule := [.reset] } : State).busy = true := ⟨rfl, rfl⟩

/-- ResetInMidCommand, `SEND`: struck before, between and after its two actions. -/
theorem witness_reset_in_send : (presenting 0x0700 0).busy = false ∧ presented (presenting 0x0700 0) = some ⟨0x0700, 0⟩
    ∧ decode (.command ⟨0x0700, 0⟩) = .ok .send
    ∧ ({ presenting 0x0700 0 with schedule := [.resetDuring 0] } : State).schedule = .resetDuring 0 :: []
    ∧ step { presenting 0x0700 0 with schedule := [.resetDuring 1] } = .next (resetDuringTurn 1 (presenting 0x0700 0))
    ∧ step { presenting 0x0700 0 with schedule := [.resetDuring 2] } = .next (resetDuringTurn 2 (presenting 0x0700 0)) :=
  ⟨rfl, rfl, rfl, rfl, rfl, rfl⟩

/-- ResetInMidCommand, `RECV`: a whole frame at hand, struck after 0 and after 22 reads. -/
theorem witness_reset_in_recv : presented { presenting 0x0600 0 with rx := frameV53 } = some ⟨0x0600, 0⟩
    ∧ decode (.command ⟨0x0600, 0⟩) = .ok .recv ∧ ({ presenting 0x0600 0 with rx := frameV53 } : State).unread = frameV53 ++ []
    ∧ frameV53.length = 22 ∧ byteAt frameV53 0 = 0x7E ∧ 0 ≤ 22 ∧ 22 ≤ 22
    ∧ step { presenting 0x0600 0 with rx := frameV53, schedule := [.resetDuring 22] }
        = .next (resetDuringTurn 22 { presenting 0x0600 0 with rx := frameV53 }) :=
  ⟨rfl, rfl, rfl, rfl, rfl, by decide, by decide, rfl⟩

/-- HistoryOnlyGrows: a step that emits, and one that reads. -/
theorem witness_history : step (presenting 0x0700 0) = .next (afterCoreTurn (presenting 0x0700 0))
    ∧ step (receiving .block) = .next (afterCoreTurn (receiving .block)) := ⟨rfl, rfl⟩

/-- OnlySixCommandsWriteRes: a command that does not write `RES`, one that would and ends with `ILLEGAL`, and an illegal word. -/
theorem witness_res_written : exec .clr State.reset = .next (afterExec .clr State.reset) ∧ writesRes .clr = false
    ∧ exec (.rdb 22) State.reset = .next (afterExec (.rdb 22) State.reset) ∧ (afterExec (.rdb 22) State.reset).rc = .illegal
    ∧ isCommand (.rdb 22) = true ∧ writesRes (.getf .id) = true ∧ (Instr.getf .id).wf = true
    ∧ presented (presenting 0x0C00 0) = some ⟨0x0C00, 0⟩ ∧ (0x0C00 : CmdWord) ∉ legalWords :=
  ⟨rfl, rfl, rfl, rfl, rfl, rfl, rfl, rfl, by decide⟩

/-- ResultCodes: each way a command ends. -/
theorem witness_result_codes : exec (.wrb 22 0) State.reset = .next (afterExec (.wrb 22 0) State.reset)
    ∧ (afterExec (.wrb 22 0) State.reset).busy = false
    ∧ isCommand .ser = true ∧ exec .ser State.reset = .next (afterExec .ser State.reset) ∧ (afterExec .ser State.reset).busy = false
    ∧ exec .recv (waiting [0x00]) = .next (afterExec .recv (waiting [0x00])) ∧ (afterExec .recv (waiting [0x00])).busy = false :=
  ⟨rfl, rfl, rfl, rfl, rfl, rfl, rfl⟩

/-- NoCodeIsSticky. -/
theorem witness_no_code_sticky : exec .recv (waiting [0x00]) = .next (afterExec .recv (waiting [0x00]))
    ∧ (afterExec .recv (waiting [0x00])).busy = false ∧ isCommand .recv = true := ⟨rfl, rfl, rfl⟩

/-- ArrivalDisturbsNothing: a byte arrives in the middle of a `RECV`. -/
theorem witness_arrival : ({ receiving .block with schedule := [.rxByte 0x7E] } : State).schedule = .rxByte 0x7E :: [] := rfl

end Sys2Proof.Tests
end

section
/-! What one `RECV` that runs or goes on can end in, and what a decoded command word is: the two inversion lemmas the statements
about the state (10_state.md) are derived from. -/

namespace Sys2Proof.Machine

/-- The frame check ends the `RECV` and writes besides only `PKT` and the emitted events. -/
theorem recvCheck_ends (s : State) : ∃ c p o, recvCheck s = endCommand c { s with pkt := p, out := o } := by
  rcases recvCheck_cases s with ⟨_, h⟩ | ⟨_, h⟩
  · exact ⟨_, _, _, h⟩
  · exact ⟨_, _, _, h⟩

/-- A `RECV` that goes on misses at its first byte, blocks with every unread byte stored, or ends with the missing bytes stored
(42_framesync.md R161, R165). -/
theorem recvContinue_cases (s : State) :
    (∃ b, s.rxcnt = 0 ∧ rxNext s = some b ∧ recvContinue s = endCommand .miss (rxConsume s))
    ∨ (∃ l, s.rxcnt + l.length < Config.packetSize ∧ s.unread = l ∧ StartsWithMarker s l ∧ recvContinue s = recvStoreAll l s)
    ∨ (∃ l more c p o, l.length = Config.packetSize - s.rxcnt ∧ s.unread = l ++ more
        ∧ recvContinue s = endCommand c { recvStoreAll l s with pkt := p, out := o }) := by
  rcases recvCollect_cases (Config.packetSize - s.rxcnt) s with
    ⟨b, _, h0, hb, _, h⟩ | ⟨l, hl, hu, hm, h⟩ | ⟨l, more, hl, hu, _, h⟩
  · exact Or.inl ⟨b, h0, hb, h⟩
  · exact Or.inr (Or.inl ⟨l, by omega, hu, hm, h⟩)
  · obtain ⟨c, p, o, hc⟩ := recvCheck_ends (recvStoreAll l s)
    exact Or.inr (Or.inr ⟨l, more, c, p, o, hl, hu, h.trans hc⟩)

/-- After every unread byte is stored there is none to read. -/
theorem rxNext_recvStoreAll_unread {l : List Byte} {s : State} (hu : s.unread = l) : rxNext (recvStoreAll l s) = none := by
  subst hu
  simp only [rxNext, recvStoreAll, State.unread, List.length_drop, List.getElem?_eq_none_iff]
  omega

/-- The bytes at hand lie within the received bytes. -/
theorem rxpos_add_le_of_unread {l more : List Byte} {s : State} (h : s.rxpos ≤ s.rx.length) (hu : s.unread = l ++ more) :
    s.rxpos + l.length ≤ s.rx.length := by
  have hlen := congrArg List.length hu
  simp only [State.unread, List.length_drop, List.length_append] at hlen
  omega

/-- The `k`-th unread byte, by its place among all received bytes. -/
theorem getElem?_rx_of_unread {l : List Byte} {s : State} (hu : s.unread = l) (k : Nat) : s.rx[s.rxpos + k]? = l[k]? := by
  rw [← hu, State.unread, List.getElem?_drop]

/-- A command word, written out by the number of its operation code and its argument. -/
theorem cw_eq_mkWord {cw : CmdWord} {n : Nat} {arg : Byte} (hop : (opOf cw).toNat = n) (harg : argOf cw = arg) :
    cw = mkWord (BitVec.ofNat 8 n) arg := by
  rw [← hop, ← harg, BitVec.ofNat_toNat, BitVec.setWidth_eq, mkWord_opOf_argOf]

/-- What a command word decodes to is a well-formed command whose encoding has that word (30_encoding.md R90, R95). -/
theorem decodeCommand_ok {c : Command} {i : Instr} (h : decodeCommand c = .ok i) :
    isCommand i = true ∧ i.wf = true ∧ ∃ wd, encode i = .command ⟨c.cw, wd⟩ := by
  unfold decodeCommand decodeOpArg at h
  split at h
  case h_1 hop | h_2 hop | h_3 hop | h_4 hop | h_5 hop | h_6 hop | h_7 hop =>
    obtain ⟨harg, rfl⟩ := decodeNoArg_eq_ok.1 h
    exact ⟨rfl, rfl, _, by rw [cw_eq_mkWord hop harg]; rfl⟩
  case h_8 hop | h_9 hop =>
    obtain ⟨f, harg, rfl⟩ := decodeField_eq_ok.1 h
    exact ⟨rfl, rfl, _, by rw [cw_eq_mkWord hop harg.symm]; rfl⟩
  case h_10 hop | h_11 hop =>
    obtain ⟨a, ha, harg, rfl⟩ := decodeOffset_eq_ok.1 h
    exact ⟨rfl, ha, _, by rw [cw_eq_mkWord hop harg.symm]; rfl⟩
  case h_12 => cases h

/-- What a command other than `RECV` has done to the state `s` when, at `u`, it ends with `code`. -/
structure CommandWork (i : Instr) (s : State) (code : ResultCode) (u : State) : Prop where
  pc : u.pc = s.pc
  program : u.program = s.program
  rx : u.rx = s.rx
  rxpos : u.rxpos = s.rxpos
  rxcnt : u.rxcnt = s.rxcnt
  buf_wf : Memory.wf s.buf = true → Memory.wf u.buf = true
  res : u.res = s.res ∨ writesRes i = true ∧ code = .ok

theorem CommandWork.refl (i : Instr) (s : State) (code : ResultCode) : CommandWork i s code s :=
  ⟨rfl, rfl, rfl, rfl, rfl, id, Or.inl rfl⟩

theorem commandWork_setPkt (i : Instr) (s : State) (code : ResultCode) (p : Packet) : CommandWork i s code (setPkt p s) :=
  ⟨rfl, rfl, rfl, rfl, rfl, id, Or.inl rfl⟩

theorem commandWork_setRes {i : Instr} (hi : writesRes i = true) (s : State) (v : Word) : CommandWork i s .ok (setRes v s) :=
  ⟨rfl, rfl, rfl, rfl, rfl, id, Or.inr ⟨hi, rfl⟩⟩

/-- A command is `RECV`, or it does its work and ends. -/
theorem exec_command_cases {i : Instr} {s t : State} (hi : isCommand i = true) (he : exec i s = .next t) :
    (i = .recv ∧ t = recvContinue (recvStart s)) ∨ ∃ code u, t = endCommand code u ∧ CommandWork i s code u := by
  have hb := exec_next_idle hi he
  have hser : Memory.wf s.buf = true → Memory.wf (serializeToBuf s).buf = true := fun h =>
    writeFrame_wf h (Nat.le_of_eq (serialize_length _))
  cases i with
  | recv => rw [exec_recv_idle hb] at he; cases he; exact Or.inl ⟨rfl, rfl⟩
  | clr => rw [exec_clr_idle hb] at he; cases he; exact Or.inr ⟨_, _, rfl, commandWork_setPkt _ s _ _⟩
  | des => rw [exec_des_idle hb] at he; cases he; exact Or.inr ⟨_, _, rfl, commandWork_setPkt _ s _ _⟩
  | setf f v => rw [exec_setf_idle hb] at he; cases he; exact Or.inr ⟨_, _, rfl, commandWork_setPkt _ s _ _⟩
  | crc => rw [exec_crc_idle hb] at he; cases he; exact Or.inr ⟨_, _, rfl, commandWork_setRes rfl s _⟩
  | val => rw [exec_val_idle hb] at he; cases he; exact Or.inr ⟨_, _, rfl, commandWork_setRes rfl s _⟩
  | getf f => rw [exec_getf_idle hb] at he; cases he; exact Or.inr ⟨_, _, rfl, commandWork_setRes rfl s _⟩
  | ser =>
    rw [exec_ser_idle hb] at he; cases he
    exact Or.inr ⟨.ok, _, rfl, rfl, rfl, rfl, rfl, rfl, hser, Or.inr ⟨rfl, rfl⟩⟩
  | send =>
    rw [exec_send_idle hb] at he; cases he
    exact Or.inr ⟨.ok, _, rfl, rfl, rfl, rfl, rfl, rfl, hser, Or.inr ⟨rfl, rfl⟩⟩
  | rdb a =>
    cases ha : offsetLegal a with
    | true => rw [exec_rdb_idle hb ha] at he; cases he; exact Or.inr ⟨_, _, rfl, commandWork_setRes rfl s _⟩
    | false => rw [exec_rdb_illegal hb ha] at he; cases he; exact Or.inr ⟨_, _, rfl, CommandWork.refl _ s _⟩
  | wrb a v =>
    cases ha : offsetLegal a with
    | true =>
      rw [exec_wrb_idle hb ha] at he; cases he
      exact Or.inr ⟨_, _, rfl, rfl, rfl, rfl, rfl, rfl, fun h => writeBuf_wf _ h (of_decide_eq_true ha), Or.inl rfl⟩
    | false => rw [exec_wrb_illegal hb ha] at he; cases he; exact Or.inr ⟨_, _, rfl, CommandWork.refl _ s _⟩
  | opCode1000 | opCode1001 | opCode1002 | opCode1003 | opCode1004 => cases hi

/-- The core's turn on an idle core with a command presented: a legal word runs its command, any other ends with `ILLEGAL`. -/
theorem coreTurn_presented {s : State} {c : Command} (hb : s.busy = false) (hp : presented s = some c) :
    (∃ i, decodeCommand c = .ok i ∧ coreTurn s = exec i s)
    ∨ (∃ e, decodeCommand c = .error e ∧ coreTurn s = .next (illegalCommand s)) := by
  rw [coreTurn_idle hb]
  rcases runPresented_cases s with ⟨h, _⟩ | ⟨c', i, h, hd, hr⟩ | ⟨c', e, h, hd, hr⟩ <;> rw [hp] at h <;> cases h
  · exact Or.inl ⟨i, hd, hr⟩
  · exact Or.inr ⟨e, hd, hr⟩

end Sys2Proof.Machine
end

section
/-! O47, O48: the invariant of the state. Each way a turn can change the state keeps it. -/

namespace Sys2Proof.Machine

/-- A command that ends, from a program entry that exists, leaves only the bounds to show: nothing is in progress afterwards. -/
theorem inv_endCommand (code : ResultCode) {s : State} (hbuf : Memory.wf s.buf = true) (hrxpos : s.rxpos ≤ s.rx.length)
    (hrxcnt : s.rxcnt ≤ Config.packetSize) (hpc : s.pc < s.program.length) : (endCommand code s).Inv where
  buf := hbuf
  rxpos := hrxpos
  rxcnt := hrxcnt
  pc := hpc
  receiving := nofun

theorem inv_withSchedule {s : State} (h : s.Inv) (turns : List Turn) : State.Inv { s with schedule := turns } where
  buf := h.buf
  rxpos := h.rxpos
  rxcnt := h.rxcnt
  pc := h.pc
  receiving hb :=
    have r := h.receiving hb
    { cleared := r.cleared, missing := r.missing, consumed := r.consumed, presented := r.presented,
      received := r.received, marker := r.marker }

/-- The start of a `RECV` has received nothing yet. -/
theorem inv_recvStart {s : State} (h : s.Inv) (hpc : s.pc < s.program.length) : (recvStart s).Inv where
  buf := h.buf
  rxpos := h.rxpos
  rxcnt := Nat.zero_le _
  pc := h.pc
  receiving _ :=
    { cleared := rfl, missing := show 0 < Config.packetSize by decide, consumed := Nat.zero_le _, presented := hpc,
      received := nofun, marker := nofun }

/-- Storing the bytes at hand, short of a whole frame, keeps what holds of a `RECV` in progress. -/
theorem receiving_recvStoreAll {l : List Byte} {s : State} (r : s.Receiving) (hlt : s.rxcnt + l.length < Config.packetSize)
    (hu : s.unread = l) (hm : StartsWithMarker s l) : (recvStoreAll l s).Receiving where
  cleared := r.cleared
  missing := hlt
  consumed := Nat.add_le_add_right r.consumed _
  presented := r.presented
  received k hk := by
    have hcons := r.consumed
    simp only [recvStoreAll, Memory.read?_writeSeq] at hk ⊢
    rw [show s.rxpos + l.length - (s.rxcnt + l.length) + k = s.rxpos - s.rxcnt + k by omega]
    by_cases hold : k < s.rxcnt
    · rw [if_neg (by omega), r.received k hold]
    · rw [if_pos (by omega), ← getElem?_rx_of_unread hu, show s.rxpos + (k - s.rxcnt) = s.rxpos - s.rxcnt + k by omega]
  marker hpos := by
    simp only [recvStoreAll, Memory.read?_writeSeq] at hpos ⊢
    by_cases h0 : s.rxcnt = 0
    · obtain ⟨b, rest, rfl⟩ : ∃ b rest, l = b :: rest := List.exists_cons_of_length_pos (by omega)
      simp [h0, hm h0 b rfl]
    · rw [if_neg (by omega), r.marker (by omega)]

/-- A `RECV` that goes on keeps the invariant, whether it misses, blocks or checks the frame. -/
theorem inv_recvContinue {s : State} (h : s.Inv) (hb : s.busy = true) : (recvContinue s).Inv := by
  have r := h.receiving hb
  rcases recvContinue_cases s with ⟨b, _, hnext, hc⟩ | ⟨l, hlt, hu, hm, hc⟩ | ⟨l, more, c, p, o, hl, hu, hc⟩ <;> rw [hc]
  · have hread : s.rxpos < s.rx.length := (List.getElem?_eq_some_iff.1 hnext).1
    exact inv_endCommand _ h.buf hread h.rxcnt r.presented
  · have hread : s.rxpos + l.length ≤ s.rx.length := rxpos_add_le_of_unread (more := []) h.rxpos (by simpa using hu)
    exact ⟨Memory.wf_writeSeq l h.buf (Nat.le_of_lt hlt), hread, Nat.le_of_lt hlt, h.pc,
      fun _ => receiving_recvStoreAll r hlt hu hm⟩
  · have hcnt : s.rxcnt + l.length ≤ Config.packetSize := by have := h.rxcnt; omega
    exact inv_endCommand c (Memory.wf_writeSeq l h.buf hcnt) (rxpos_add_le_of_unread h.rxpos hu) hcnt r.presented

/-- A command presented to the core keeps the invariant. -/
theorem inv_exec {i : Instr} {s t : State} (h : s.Inv) (hpc : s.pc < s.program.length) (hi : isCommand i = true)
    (he : exec i s = .next t) : t.Inv := by
  rcases exec_command_cases hi he with ⟨_, rfl⟩ | ⟨code, u, rfl, w⟩
  · exact inv_recvContinue (inv_recvStart h hpc) rfl
  · refine inv_endCommand code (w.buf_wf h.buf) ?_ ?_ ?_
    · rw [w.rxpos, w.rx]; exact h.rxpos
    · rw [w.rxcnt]; exact h.rxcnt
    · rw [w.pc, w.program]; exact hpc

theorem inv_coreTurn {s t : State} (h : s.Inv) (ht : coreTurn s = .next t) : t.Inv := by
  cases hb : s.busy with
  | true => rw [coreTurn_busy hb] at ht; cases ht; exact inv_recvContinue h hb
  | false =>
    cases hp : presented s with
    | none => rw [coreTurn_idle hb, runPresented, hp] at ht; cases ht; exact h
    | some c =>
      have hpc : s.pc < s.program.length := (List.getElem?_eq_some_iff.1 hp).1
      rcases coreTurn_presented hb hp with ⟨i, hd, hc⟩ | ⟨e, _, hc⟩ <;> rw [hc] at ht
      · exact inv_exec h hpc (decodeCommand_ok hd).1 ht
      · cases ht; exact inv_endCommand _ h.buf h.rxpos h.rxcnt hpc

/-- An arriving byte goes behind all that were consumed. -/
theorem inv_deliver {s : State} (h : s.Inv) (b : Byte) : (deliver b s).Inv where
  buf := h.buf
  rxpos := by have := h.rxpos; simp; omega
  rxcnt := h.rxcnt
  pc := h.pc
  receiving hb :=
    have r := h.receiving hb
    { cleared := r.cleared, missing := r.missing, consumed := r.consumed, presented := r.presented, marker := r.marker,
      received := fun k hk => by
        have hin : s.rxpos - s.rxcnt + k < s.rx.length := by
          have := h.rxpos; have := r.consumed; simp only [deliver_rxcnt] at hk; omega
        simpa only [deliver_buf, deliver_rx, deliver_rxpos, deliver_rxcnt, List.getElem?_append_left hin] using r.received k hk }

theorem inv_rxTimeoutTurn {s : State} (h : s.Inv) : (rxTimeoutTurn s).Inv := by
  rcases rxTimeoutTurn_cases s with ⟨hb, _, _, ht⟩ | ⟨_, ht⟩ <;> rw [ht]
  · exact inv_endCommand _ h.buf h.rxpos h.rxcnt (h.receiving hb).presented
  · exact h

/-- A reset asks only the bounds of what lies outside the core. -/
theorem inv_resetCore {s : State} (hrxpos : s.rxpos ≤ s.rx.length) (hpc : s.pc ≤ s.program.length) : (resetCore s).Inv where
  buf := Memory.wf_nil
  rxpos := hrxpos
  rxcnt := Nat.zero_le _
  pc := hpc
  receiving := nofun

/-- The reads a struck command had made are ones its whole turn would make, so they stay within the received bytes. -/
theorem inv_resetDuringTurn {s : State} (h : s.Inv) (n : Nat) : (resetDuringTurn n s).Inv := by
  have hturn := coreTurn_total s
  have hread : (afterCoreTurn s).rxpos ≤ s.rx.length := (progress_coreTurn hturn).rx ▸ (inv_coreTurn h hturn).rxpos
  have hpos := h.rxpos
  exact inv_resetCore (show s.rxpos + min n ((afterCoreTurn s).rxpos - s.rxpos) ≤ s.rx.length by omega) h.pc

/-- Whoever moves, the invariant is kept. -/
theorem inv_takeTurn {turn : Turn} {s t : State} (h : s.Inv) (ht : takeTurn turn s = .next t) : t.Inv := by
  cases turn with
  | core => exact inv_coreTurn h ht
  | dispatch => rw [takeTurn, dispatchTurn_eq] at ht; cases ht; exact h
  | rxByte b => cases ht; exact inv_deliver h b
  | rxTimeout => cases ht; exact inv_rxTimeoutTurn h
  | reset => cases ht; exact inv_resetCore h.rxpos h.pc
  | resetDuring n => cases ht; exact inv_resetDuringTurn h n

/-- Settles O47: the step takes a turn off the schedule and lets that agent move, and both keep the invariant. -/
theorem stepKeepsInv : Obligations.StepKeepsInv := by
  intro s t h hstep
  cases hs : s.schedule with
  | nil => rw [step_nil hs] at hstep; exact inv_coreTurn h hstep
  | cons turn rest => rw [step_cons hs] at hstep; exact inv_takeTurn (inv_withSchedule h rest) hstep

/-- Settles O48: at reset nothing is in progress, every bound is 0 and no block has been emitted. -/
theorem resetHasInv : Obligations.ResetHasInv := by
  refine ⟨⟨reset_buf_wf, Nat.le_refl 0, Nat.zero_le _, Nat.le_refl 0, nofun⟩, ?_⟩
  intro bytes hmem
  cases hmem

end Sys2Proof.Machine
end

section
/-! O44: which turns move the program's index. -/

namespace Sys2Proof.Machine

/-- A `RECV` in progress that goes on ends and counts as one command, or is still in progress with no byte to read. -/
theorem pc_recvContinue {s : State} (hb : s.busy = true) :
    ((recvContinue s).busy = false ∧ (recvContinue s).pc = s.pc + 1)
    ∨ ((recvContinue s).busy = true ∧ (recvContinue s).pc = s.pc ∧ rxNext (recvContinue s) = none) := by
  rcases recvContinue_cases s with ⟨b, _, _, hc⟩ | ⟨l, _, hu, _, hc⟩ | ⟨l, more, c, p, o, _, _, hc⟩ <;> rw [hc]
  · exact Or.inl ⟨rfl, rfl⟩
  · exact Or.inr ⟨hb, rfl, rxNext_recvStoreAll_unread hu⟩
  · exact Or.inl ⟨rfl, rfl⟩

/-- A command ends and counts, or is a `RECV` blocked with no byte to read. -/
theorem pc_exec {i : Instr} {s t : State} (hi : isCommand i = true) (he : exec i s = .next t) :
    (t.busy = false ∧ t.pc = s.pc + 1) ∨ (t.busy = true ∧ t.pc = s.pc ∧ rxNext t = none) := by
  rcases exec_command_cases hi he with ⟨_, rfl⟩ | ⟨code, u, rfl, w⟩
  · exact pc_recvContinue (s := recvStart s) rfl
  · exact Or.inl ⟨rfl, congrArg (· + 1) w.pc⟩

/-- The core's turn with a command presented: it ends and counts, or blocks. -/
theorem pc_coreTurn_presented {s t : State} {c : Command} (hb : s.busy = false) (hp : presented s = some c)
    (ht : coreTurn s = .next t) :
    (t.busy = false ∧ t.pc = s.pc + 1) ∨ (t.busy = true ∧ t.pc = s.pc ∧ rxNext t = none) := by
  rcases coreTurn_presented hb hp with ⟨i, hd, hc⟩ | ⟨e, _, hc⟩ <;> rw [hc] at ht
  · exact pc_exec (decodeCommand_ok hd).1 ht
  · cases ht; exact Or.inl ⟨rfl, rfl⟩

/-- Settles O44: a turn of the core ends its command or leaves a `RECV` blocked; the other agents do not write `pc`. -/
theorem pcCountsEndedCommands : Obligations.PcCountsEndedCommands := by
  refine ⟨fun s t c hb hp ht => ?_, fun s t hb ht => ?_, fun s t n b ht => ?_⟩
  · rcases pc_coreTurn_presented hb hp ht with ⟨hbt, hpc⟩ | ⟨hbt, hpc, hnext⟩
    · exact ⟨fun _ => hpc, fun h => by simp [hbt] at h⟩
    · exact ⟨fun h => by simp [hbt] at h, fun _ => ⟨hpc, hnext⟩⟩
  · rw [coreTurn_busy hb] at ht; cases ht
    rcases pc_recvContinue hb with ⟨hbt, hpc⟩ | ⟨hbt, hpc, _⟩
    · exact ⟨fun _ => hpc, fun h => by simp [hbt] at h⟩
    · exact ⟨fun h => by simp [hbt] at h, fun _ => hpc⟩
  · rcases ht with ht | ht | ht | ht
    · rw [takeTurn, dispatchTurn_eq] at ht; cases ht; rfl
    · cases ht; rfl
    · cases ht; rfl
    · cases ht; rfl

end Sys2Proof.Machine
end

section
/-! O45: while `BUSY` = 1 the command interface is shut and the core's turn is the `RECV` in progress. -/

namespace Sys2Proof.Machine

/-- The collection of a frame does not look at the program. -/
theorem recvCollect_withProgram (p : List Command) (n : Nat) (s : State) :
    recvCollect n { s with program := p } = { recvCollect n s with program := p } := by
  induction n generalizing s with
  | zero =>
    have hframe : bufFrame { s with program := p } = bufFrame s := bufFrame_of_buf_eq rfl rfl
    simp only [recvCollect, recvCheck, hframe]
    split <;> rfl
  | succ n ih =>
    have hnext : rxNext { s with program := p } = rxNext s := rfl
    simp only [recvCollect, hnext]
    split
    · rfl
    · rename_i b _
      split
      · rfl
      · exact ih (recvStore b (rxConsume s))

/-- Every command goes through the command interface, which a busy core does not open. -/
theorem exec_busy {i : Instr} {s : State} (hb : s.busy = true) (hi : isCommand i = true) :
    exec i s = .refused .commandWhileBusy := by
  cases i with
  | clr | ser | des | crc | val | recv | send | getf | setf | rdb | wrb =>
    simp only [exec, execClr, execSer, execDes, execCrc, execVal, execRecv, execSend, execGetf, execSetf, execRdb, execWrb,
      command_busy hb]
  | opCode1000 | opCode1001 | opCode1002 | opCode1003 | opCode1004 => cases hi

/-- Settles O45: a busy core refuses every command, and its turn is `recvContinue`, which reads nothing of the program. -/
theorem busyAcceptsNoCommand : Obligations.BusyAcceptsNoCommand := by
  refine ⟨fun _ _ hb hi => exec_busy hb hi, fun s t p hb ht => ?_⟩
  rw [coreTurn_busy hb] at ht; cases ht
  rw [coreTurn_busy (s := { s with program := p }) hb]
  exact congrArg _ (recvCollect_withProgram p _ s)

end Sys2Proof.Machine
end

section
/-! O53: which commands write `RES`. -/

namespace Sys2Proof.Machine

theorem res_recvContinue (s : State) : (recvContinue s).res = s.res := by
  rcases recvContinue_cases s with ⟨b, _, _, hc⟩ | ⟨l, _, _, _, hc⟩ | ⟨l, more, c, p, o, _, _, hc⟩ <;> rw [hc] <;> rfl

/-- An instruction leaves `RES` alone, or it is one of the six that write it and ends with `OK`. -/
theorem res_exec {i : Instr} {s t : State} (he : exec i s = .next t) :
    t.res = s.res ∨ writesRes i = true ∧ t.rc = .ok := by
  cases hi : isCommand i with
  | true =>
    rcases exec_command_cases hi he with ⟨_, rfl⟩ | ⟨code, u, rfl, w⟩
    · exact Or.inl (res_recvContinue (recvStart s))
    · exact w.res
  | false =>
    cases i with
    | opCode1000 | opCode1001 | opCode1002 | opCode1003 | opCode1004 => cases he; exact Or.inl rfl
    | clr | ser | des | crc | val | recv | send | getf | setf | rdb | wrb => cases hi

/-- Each of the six leaves in `RES` a value that does not depend on what `RES` held. -/
theorem exec_res_of_writesRes {i : Instr} (hw : writesRes i = true) (hwf : i.wf = true) {s : State} (hb : s.busy = false) :
    ∃ v, ∀ r, ∃ t, exec i (setRes r s) = .next t ∧ t.res = v := by
  cases i with
  | ser => exact ⟨frameSizeWord, fun r => ⟨_, exec_ser_idle hb, rfl⟩⟩
  | crc => exact ⟨zextCrc (crc24 (contentOf (bufFrame s))), fun r => ⟨_, exec_crc_idle hb, rfl⟩⟩
  | val => exact ⟨truthWord (packetValid s.pkt), fun r => ⟨_, exec_val_idle hb, rfl⟩⟩
  | send => exact ⟨frameSizeWord, fun r => ⟨_, exec_send_idle hb, rfl⟩⟩
  | getf f => exact ⟨fieldRead s.pkt f, fun r => ⟨_, exec_getf_idle hb f, rfl⟩⟩
  | rdb a => exact ⟨zextByte (bufByte s a.toNat), fun r => ⟨_, exec_rdb_idle (s := setRes r s) hb hwf, rfl⟩⟩
  | clr | des | recv | setf | wrb | opCode1000 | opCode1001 | opCode1002 | opCode1003 | opCode1004 => cases hw

/-- The word of a well-formed command is one of the 65. -/
theorem mem_legalWords_of_encode {i : Instr} {cw : CmdWord} {wd : Word} (hwf : i.wf = true) (h : encode i = .command ⟨cw, wd⟩) :
    cw ∈ legalWords := by
  cases i with
  | clr | ser | des | crc | val | recv | send => cases h; decide
  | getf f => cases h; cases f <;> decide
  | setf f v => cases h; cases f <;> decide
  | rdb a =>
    have key : ∀ a, offsetLegal a = true → mkWord 0x0A (a.setWidth 8) ∈ legalWords := by decide
    cases h; exact key a hwf
  | wrb a v =>
    have key : ∀ a, offsetLegal a = true → mkWord 0x0B (a.setWidth 8) ∈ legalWords := by decide
    cases h; exact key a hwf
  | opCode1000 | opCode1001 | opCode1002 | opCode1003 | opCode1004 => cases h

/-- An illegal word presented to the idle core ends with `ILLEGAL`. -/
theorem coreTurn_illegal {s : State} {c : Command} (hb : s.busy = false) (hp : presented s = some c) (hc : c.cw ∉ legalWords) :
    coreTurn s = .next (illegalCommand s) := by
  rcases coreTurn_presented hb hp with ⟨i, hd, _⟩ | ⟨_, _, ht⟩
  · obtain ⟨_, hwf, wd, henc⟩ := decodeCommand_ok hd
    exact absurd (mem_legalWords_of_encode hwf henc) hc
  · exact ht

/-- Settles O53: an instruction writes `RES` only as one of the six ending with `OK`; each of the six changes it where it held
another value than the one written. -/
theorem onlySixCommandsWriteRes : Obligations.OnlySixCommandsWriteRes := by
  refine ⟨fun i s t he hor => ?_, fun i hw hwf => ?_, fun s c hb hp hc => ?_⟩
  · rcases res_exec he with h | ⟨hw, hok⟩
    · exact h
    · rcases hor with hnot | ⟨hill, _⟩
      · simp [hw] at hnot
      · simp [hok] at hill
  · obtain ⟨v, hv⟩ := exec_res_of_writesRes hw hwf (s := State.reset) rfl
    obtain ⟨t, he, hres⟩ := hv (v + 1)
    exact ⟨setRes (v + 1) State.reset, t, he, by simp [hres]⟩
  · exact ⟨_, coreTurn_illegal hb hp hc, rfl⟩

end Sys2Proof.Machine
end

section
/-! O43, O49: what the next step runs after an instruction is placed, and what reset leaves. -/

namespace Sys2Proof.Machine

theorem decodeTableWord_eq_some {nbits w : Nat} {i : Instr} :
    decodeTableWord nbits w = some i ↔ decode (encodedOfTableWord nbits w) = .ok i := by
  unfold decodeTableWord
  cases decode (encodedOfTableWord nbits w) <;> simp

/-- A placed command is what the core's next step runs. -/
theorem step_placeEncoded_command {c : Command} {i : Instr} (s : State) (hd : decodeCommand c = .ok i) :
    step (placeEncoded (.command c) s) = exec i { s with busy := false, program := placeCommand s.program s.pc c } := by
  rw [step_coreFirst (s := placeEncoded (.command c) s) (rest := s.schedule) rfl]
  rcases coreTurn_presented (s := { s with busy := false, program := placeCommand s.program s.pc c }) rfl
    (getElem?_placeCommand c s.program s.pc) with ⟨j, hj, ht⟩ | ⟨e, hj, _⟩ <;> rw [hd] at hj <;> cases hj
  exact ht

/-- A placed wire value is what the node's dispatch, next on turn, runs. -/
theorem step_placeEncoded_wireOpCode {v : Word} {i : Instr} (s : State) (hd : decode (.wireOpCode v) = .ok i) :
    step (placeEncoded (.wireOpCode v) s) = exec i { s with busy := false, pkt := { s.pkt with opCode := v } } := by
  rw [step_cons (s := placeEncoded (.wireOpCode v) s) (rest := s.schedule) rfl]
  simp [takeTurn, dispatchTurn, placeEncoded, hd]

/-- Settles O43: a 16-bit word is placed as a command, a 32-bit word as a wire value. -/
theorem placedWordRunsNext : Obligations.PlacedWordRunsNext := by
  refine ⟨fun s w i h => ?_, fun s w i h => ?_⟩
  · exact ⟨_, getElem?_placeCommand _ s.program s.pc, step_placeEncoded_command s (decodeTableWord_eq_some.1 h)⟩
  · exact step_placeEncoded_wireOpCode s (decodeTableWord_eq_some.1 h)

/-- Settles O49: each value is the one `State.reset` is built with, and nothing is listed in `BUF`. -/
theorem resetValues : Obligations.ResetValues :=
  ⟨rfl, rfl, rfl, rfl, Memory.read?_nil⟩

end Sys2Proof.Machine
end

section
/-! O16: a byte of `BUF` is a byte of the big-endian image of the field it belongs to. -/

namespace Sys2Proof.Machine

/-- Offsets 1 to 4 of a serialized packet hold `id`, the most significant byte first (30_encoding.md R83). -/
theorem byteAt_serialize_id (p : Packet) {k : Nat} (h1 : 1 ≤ k) (h4 : k ≤ 4) :
    (byteAt (serialize p) k).toNat = p.id.toNat / 256 ^ (4 - k) % 256 := by
  interval_cases k
  · exact extract_toNat p.id 24
  · exact extract_toNat p.id 16
  · exact extract_toNat p.id 8
  · exact extract_toNat p.id 0

/-- The low byte of a joined field is the byte at its highest offset. -/
theorem join4_toNat_mod (a b c d : Byte) : (join4 a b c d).toNat % 256 = d.toNat := by
  have hd := d.isLt
  rw [join4_toNat]
  omega

/-- Deserializing `BUF` takes the low byte of `data` from offset 18. -/
theorem deserialize_bufFrame_data_mod (s : State) : (deserialize (bufFrame s)).data.toNat % 256 = (bufByte s 18).toNat := by
  rw [← byteAt_bufFrame s (by decide)]
  exact join4_toNat_mod _ _ _ _

/-- The word `RDB` leaves has the value of the byte read. -/
theorem zextByte_toNat (b : Byte) : (zextByte b).toNat = b.toNat :=
  BitVec.toNat_setWidth_of_le (by decide)

/-- Settles O16: `SER` leaves the serialized packet in `BUF`, where `RDB` finds the bytes of `id`; `WRB 18` leaves its byte where `DES`
takes the low byte of `data` from. -/
theorem byteViewIsBigEndian : Obligations.ByteViewIsBigEndian := by
  refine ⟨fun s k hb h1 h4 => ?_, fun s v hb => ?_⟩
  · have hk : offsetLegal k = true := (offsetLegal_iff k).2 (by omega)
    refine ⟨_, _, exec_ser_idle hb, exec_rdb_idle rfl hk, ?_⟩
    have hbyte := bufByte_of_buf_writeAll (t := endOk (setRes frameSizeWord (serializeToBuf s))) (serializeToBuf_buf s) rfl k.toNat
    rw [if_pos (by rw [serialize_length, Config.packetSize]; omega)] at hbyte
    calc (zextByte (bufByte _ k.toNat)).toNat
        = (bufByte _ k.toNat).toNat := zextByte_toNat _
      _ = (byteAt (serialize s.pkt) k.toNat).toNat := congrArg _ hbyte
      _ = s.pkt.id.toNat / 256 ^ (4 - k.toNat) % 256 := byteAt_serialize_id s.pkt h1 h4
  · refine ⟨_, _, exec_wrb_idle hb (by decide) v, exec_des_idle rfl, ?_⟩
    have hbyte : bufByte (endOk (writeBuf 18 (truncByte v) s)) 18 = truncByte v := bufByte_writeBuf s 18 18 _
    calc (deserialize (bufFrame (endOk (writeBuf 18 (truncByte v) s)))).data.toNat % 256
        = (bufByte (endOk (writeBuf 18 (truncByte v) s)) 18).toNat := deserialize_bufFrame_data_mod _
      _ = (truncByte v).toNat := congrArg _ hbyte
      _ = v.toNat % 256 := BitVec.toNat_setWidth 8 v

end Sys2Proof.Machine
end

section
/-! O26: an offset field above 21. -/

namespace Sys2Proof.Machine

/-- On an idle core an illegal command writes only `RC` and the program's index. -/
theorem illegalCommand_idle {s : State} (h : s.busy = false) : illegalCommand s = { s with rc := .illegal, pc := s.pc + 1 } :=
  endCommand_idle h .illegal

/-- Settles O26: an offset that is not legal ends the command with `ILLEGAL`, and a decoded instruction is well formed. -/
theorem illegalOffsetOnlySetsRc : Obligations.IllegalOffsetOnlySetsRc := by
  refine ⟨fun i s hb hi => ?_, fun i v s hb hi => ?_, fun c i hd => ?_, fun c i v hd => ?_⟩
  · rw [exec_rdb_illegal hb ((offsetLegal_eq_false_iff i).2 hi), illegalCommand_idle hb]
  · rw [exec_wrb_illegal hb ((offsetLegal_eq_false_iff i).2 hi), illegalCommand_idle hb]
  · obtain ⟨_, hwf, _⟩ := decodeCommand_ok hd
    exact (offsetLegal_iff i).1 hwf
  · obtain ⟨_, hwf, _⟩ := decodeCommand_ok hd
    exact (offsetLegal_iff i).1 hwf

end Sys2Proof.Machine
end

section
/-! O52: what lies outside the core (20_memory.md R55, R60; 10_state.md R30) only moves forward, whoever's turn it is. -/

namespace Sys2Proof.Machine

/-- From `s` to `t` no event, received byte or read is taken back, and the mode and the program are the same. -/
structure HistoryGrows (s t : State) : Prop where
  out : ∃ l, t.out = s.out ++ l
  rx : ∃ l, t.rx = s.rx ++ l
  rxpos_le : s.rxpos ≤ t.rxpos
  rxpos_bound : t.rxpos ≤ s.rxpos + Config.packetSize
  rxMode : t.rxMode = s.rxMode
  program : t.program = s.program
  pc_le : s.pc ≤ t.pc
  pc_bound : t.pc ≤ s.pc + 1

/-- A command, or a `RECV` that goes on, emits after the earlier events and moves the index by at most one. -/
theorem Progress.historyGrows {s t : State} (p : Progress s t) : HistoryGrows s t := by
  have hpc : t.pc = s.pc ∨ t.pc = s.pc + 1 := by
    cases hb : t.busy with
    | true => exact Or.inl (p.pc_busy hb)
    | false => exact p.pc_ended hb
  refine ⟨?_, ⟨[], by simp [p.rx]⟩, p.rxpos_le, p.rxpos_bound, p.rxMode, p.program, by omega, by omega⟩
  rcases p.out with h | h | h
  · exact ⟨[], by simp [h]⟩
  · exact ⟨_, h⟩
  · exact ⟨_, h⟩

theorem historyGrows_deliver (b : Byte) (s : State) : HistoryGrows s (deliver b s) where
  out := ⟨[], (List.append_nil _).symm⟩
  rx := ⟨[b], rfl⟩
  rxpos_le := Nat.le_refl _
  rxpos_bound := Nat.le_add_right _ _
  rxMode := rfl
  program := rfl
  pc_le := Nat.le_refl _
  pc_bound := Nat.le_succ _

/-- Ending a command only moves the index on. -/
theorem historyGrows_endCommand (c : ResultCode) (s : State) : HistoryGrows s (endCommand c s) where
  out := ⟨[], (List.append_nil _).symm⟩
  rx := ⟨[], (List.append_nil _).symm⟩
  rxpos_le := Nat.le_refl _
  rxpos_bound := Nat.le_add_right _ _
  rxMode := rfl
  program := rfl
  pc_le := Nat.le_succ _
  pc_bound := Nat.le_refl _

theorem historyGrows_rxTimeoutTurn (s : State) : HistoryGrows s (rxTimeoutTurn s) := by
  rcases rxTimeoutTurn_cases s with ⟨_, _, _, h⟩ | ⟨_, h⟩ <;> rw [h]
  · exact historyGrows_endCommand .timeout s
  · exact (Progress.refl s).historyGrows

/-- Reset "does not reach the external agents" (70_reset_and_hazards.md R221): it takes back nothing, struck after `n` further reads
and the events `l`. -/
theorem historyGrows_resetCore (s : State) {n : Nat} (hn : n ≤ Config.packetSize) (l : List OutEvent) :
    HistoryGrows s (resetCore { s with rxpos := s.rxpos + n, out := s.out ++ l }) where
  out := ⟨l, rfl⟩
  rx := ⟨[], (List.append_nil _).symm⟩
  rxpos_le := Nat.le_add_right _ _
  rxpos_bound := Nat.add_le_add_left hn _
  rxMode := rfl
  program := rfl
  pc_le := Nat.le_refl _
  pc_bound := Nat.le_succ _

/-- A struck command had read no more than its whole turn would. -/
theorem historyGrows_resetDuringTurn (n : Nat) (s : State) : HistoryGrows s (resetDuringTurn n s) := by
  have hbound := (progress_coreTurn (coreTurn_total s)).rxpos_bound
  exact historyGrows_resetCore s (by omega) _

theorem historyGrows_takeTurn {turn : Turn} {s t : State} (h : takeTurn turn s = .next t) : HistoryGrows s t := by
  cases turn with
  | core => exact (progress_coreTurn h).historyGrows
  | dispatch => rw [takeTurn, dispatchTurn_eq] at h; cases h; exact (Progress.refl s).historyGrows
  | rxByte b => cases h; exact historyGrows_deliver b s
  | rxTimeout => cases h; exact historyGrows_rxTimeoutTurn s
  | reset => cases h; simpa using historyGrows_resetCore s (Nat.zero_le _) []
  | resetDuring n => cases h; exact historyGrows_resetDuringTurn n s

/-- Taking a turn off the schedule is no part of the history. -/
theorem HistoryGrows.of_withSchedule {s t : State} {turns : List Turn} (h : HistoryGrows { s with schedule := turns } t) :
    HistoryGrows s t :=
  ⟨h.out, h.rx, h.rxpos_le, h.rxpos_bound, h.rxMode, h.program, h.pc_le, h.pc_bound⟩

theorem historyGrows_step {s t : State} (h : step s = .next t) : HistoryGrows s t := by
  cases hs : s.schedule with
  | nil => rw [step_nil hs] at h; exact (progress_coreTurn h).historyGrows
  | cons turn rest => rw [step_cons hs] at h; exact (historyGrows_takeTurn h).of_withSchedule

/-- Settles O52: each agent's turn only adds to the history. -/
theorem historyOnlyGrows : Obligations.HistoryOnlyGrows := by
  intro s t hstep
  have h := historyGrows_step hstep
  exact ⟨h.out, h.rx, h.rxpos_le, h.rxpos_bound, h.rxMode, h.program, h.pc_le, h.pc_bound⟩

end Sys2Proof.Machine
end

section
/-! O1, O2, O4: decoding and encoding undo each other, and which commands look at the operand `WDATA`. -/

namespace Sys2Proof.Machine

/-- The instruction with `wd` for its value operand, where it has one (30_encoding.md R91). -/
def withOperand (wd : Word) (i : Instr) : Instr :=
  match i with
  | .setf f _ => .setf f wd
  | .wrb a _ => .wrb a wd
  | i => i

/-- The operand an encoding presents is the one its instruction has. -/
theorem withOperand_of_encode {i : Instr} {c : Command} (h : encode i = .command c) : withOperand c.wdata i = i := by
  cases i with
  | setf f v | wrb a v => cases h; rfl
  | clr | ser | des | crc | val | recv | send | getf f | rdb a => rfl
  | opCode1000 | opCode1001 | opCode1002 | opCode1003 | opCode1004 => rfl

theorem withOperand_of_ne {i : Instr} (hsetf : ∀ f v, i ≠ .setf f v) (hwrb : ∀ a v, i ≠ .wrb a v) (wd : Word) :
    withOperand wd i = i := by
  cases i with
  | setf f v => exact absurd rfl (hsetf f v)
  | wrb a v => exact absurd rfl (hwrb a v)
  | clr | ser | des | crc | val | recv | send | getf f | rdb a => rfl
  | opCode1000 | opCode1001 | opCode1002 | opCode1003 | opCode1004 => rfl

/-- The command word of a well-formed instruction, presented with any `WDATA`, is that instruction with `WDATA` for its operand. -/
theorem decodeCommand_of_encode {i : Instr} {c : Command} (hwf : i.wf = true) (h : encode i = .command c) (wd : Word) :
    decodeCommand ⟨c.cw, wd⟩ = .ok (withOperand wd i) := by
  cases i with
  | clr | ser | des | crc | val | recv | send =>
    cases h; exact (decodeCommand_mkWord _ _ wd).trans (decodeNoArg_eq_ok.2 ⟨rfl, rfl⟩)
  | getf f => cases h; exact (decodeCommand_mkWord _ _ wd).trans (decodeField_eq_ok.2 ⟨f, rfl, rfl⟩)
  | setf f v => cases h; exact (decodeCommand_mkWord _ _ wd).trans (decodeField_eq_ok.2 ⟨f, rfl, rfl⟩)
  | rdb a => cases h; exact (decodeCommand_mkWord _ _ wd).trans (decodeOffset_eq_ok.2 ⟨a, hwf, rfl, rfl⟩)
  | wrb a v =>
    cases h
    exact (decodeCommand_mkWord _ _ wd).trans (decodeOffset_eq_ok (k := fun a => .wrb a wd) |>.2 ⟨a, hwf, rfl, rfl⟩)
  | opCode1000 | opCode1001 | opCode1002 | opCode1003 | opCode1004 => cases h

/-- A legal command word presented with another `WDATA` is the same instruction with that operand. -/
theorem decodeCommand_withOperand {c : Command} {i : Instr} (h : decodeCommand c = .ok i) (wd : Word) :
    decodeCommand ⟨c.cw, wd⟩ = .ok (withOperand wd i) := by
  obtain ⟨_, hwf, _, henc⟩ := decodeCommand_ok h
  exact decodeCommand_of_encode hwf henc wd

/-- A decoded instruction has `WDATA` for its operand. -/
theorem withOperand_of_decodeCommand {c : Command} {i : Instr} (h : decodeCommand c = .ok i) : withOperand c.wdata i = i := by
  have hsame := (decodeCommand_withOperand h c.wdata).symm.trans h
  injection hsame

theorem decodeCommand_setf_wdata {c : Command} {f : PktField} {v : Word} (h : decodeCommand c = .ok (.setf f v)) : v = c.wdata := by
  have hop := withOperand_of_decodeCommand h
  injection hop with _ hv
  exact hv.symm

theorem decodeCommand_wrb_wdata {c : Command} {a : BitVec 5} {v : Word} (h : decodeCommand c = .ok (.wrb a v)) : v = c.wdata := by
  have hop := withOperand_of_decodeCommand h
  injection hop with _ hv
  exact hv.symm

/-- What a value of `opCode` decodes to has that value as its encoding (30_encoding.md R85). -/
theorem decodeWireOpCode_ok {v : Word} {i : Instr} (h : decodeWireOpCode v = .ok i) : i.wf = true ∧ encode i = .wireOpCode v := by
  unfold decodeWireOpCode at h
  split_ifs at h with hv hv hv hv hv <;> cases h <;> exact ⟨rfl, congrArg _ hv.symm⟩

/-- Settles O1: a command word decodes to its instruction with the operand presented, which is the instruction's own; the five
wire values are read back one by one. -/
theorem decodeOfEncode : Obligations.DecodeOfEncode := by
  intro i hwf
  cases henc : encode i with
  | command c =>
    calc decodeCommand ⟨c.cw, c.wdata⟩
        = .ok (withOperand c.wdata i) := decodeCommand_of_encode hwf henc c.wdata
      _ = .ok i := congrArg _ (withOperand_of_encode henc)
  | wireOpCode v =>
    cases i with
    | opCode1000 | opCode1001 | opCode1002 | opCode1003 | opCode1004 => cases henc; rfl
    | clr | ser | des | crc | val | recv | send | getf | setf | rdb | wrb => cases henc

/-- Settles O2: the inversion of each of the two decoders, and the operand a decoded `SETF` or `WRB` has. -/
theorem encodeOfDecode : Obligations.EncodeOfDecode := by
  refine ⟨fun c i h => ?_, fun v i h => decodeWireOpCode_ok h⟩
  obtain ⟨_, hwf, henc⟩ := decodeCommand_ok h
  refine ⟨hwf, henc, fun f v hi => ?_, fun a v hi => ?_⟩ <;> subst hi
  · exact decodeCommand_setf_wdata h
  · exact decodeCommand_wrb_wdata h

/-- A packet is determined by the values of its seven fields. -/
theorem packet_eq_of_fieldNat {p q : Packet} (h : ∀ f, fieldNat p f = fieldNat q f) : p = q :=
  Packet.ext (BitVec.eq_of_toNat_eq (h .id)) (BitVec.eq_of_toNat_eq (h .clientId)) (BitVec.eq_of_toNat_eq (h .opCode))
    (BitVec.eq_of_toNat_eq (h .pin)) (BitVec.eq_of_toNat_eq (h .pinMode)) (BitVec.eq_of_toNat_eq (h .data))
    (BitVec.eq_of_toNat_eq (h .crc))

/-- Writing a field uses only the low bits of its width. -/
theorem fieldWrite_congr {f : PktField} {v v' : Word} (h : v.toNat % 2 ^ fieldWidth f = v'.toNat % 2 ^ fieldWidth f) (p : Packet) :
    fieldWrite p f v = fieldWrite p f v' :=
  packet_eq_of_fieldNat fun g => by rw [fieldNat_fieldWrite, fieldNat_fieldWrite, h]

/-- `trunc_8` uses only the low byte. -/
theorem truncByte_congr {v v' : Word} (h : v.toNat % 256 = v'.toNat % 256) : truncByte v = truncByte v' :=
  BitVec.eq_of_toNat_eq (by simpa only [truncByte, BitVec.toNat_setWidth] using h)

/-- Settles O4: another operand only replaces the value of `SETF` and `WRB`, and these use the bits the field or the byte keeps. -/
theorem operandUse : Obligations.OperandUse := by
  refine ⟨fun cw wd wd' i h hsetf hwrb => ?_, fun _ _ _ _ h => decodeCommand_setf_wdata h, fun _ _ _ _ h => decodeCommand_wrb_wdata h,
    fun f v v' s h => ?_, fun a v v' s h => ?_⟩
  · rw [← withOperand_of_ne hsetf hwrb wd']
    exact decodeCommand_withOperand h wd'
  · simp only [exec, execSetf, fieldWrite_congr h]
  · simp only [exec, execWrb, truncByte_congr h]

end Sys2Proof.Machine
end

section
/-! O3, O5: the 65 legal command words. -/

namespace Sys2Proof.Machine

/-- The words from `b` on, `k` of them. -/
theorem mem_map_range_iff {b k : Nat} (hbk : b + k ≤ 2 ^ 16) (cw : CmdWord) :
    cw ∈ (List.range k).map (fun i => BitVec.ofNat 16 (b + i)) ↔ b ≤ cw.toNat ∧ cw.toNat < b + k := by
  rw [List.mem_map]
  constructor
  · rintro ⟨i, hi, rfl⟩
    rw [List.mem_range] at hi
    rw [BitVec.toNat_ofNat, Nat.mod_eq_of_lt (by omega)]
    omega
  · rintro ⟨hlo, hhi⟩
    refine ⟨cw.toNat - b, List.mem_range.2 (by omega), ?_⟩
    rw [Nat.add_sub_cancel' hlo, BitVec.ofNat_toNat, BitVec.setWidth_eq]

/-- The seven argument-less words: operation code 1 to 7, argument 0. -/
theorem mem_plainWords_iff (cw : CmdWord) :
    cw ∈ [0x0100, 0x0200, 0x0300, 0x0400, 0x0500, 0x0600, 0x0700]
      ↔ 1 ≤ cw.toNat / 256 ∧ cw.toNat / 256 ≤ 7 ∧ cw.toNat % 256 = 0 := by
  simp only [List.mem_cons, List.not_mem_nil, or_false, ← BitVec.toNat_inj, BitVec.toNat_ofNat, BitVec.ofNat_eq_ofNat]
  omega

/-- The words 30_encoding.md R94 lists, by the values of `op` and `arg`. -/
theorem illegalWord_iff_opOf_argOf (cw : CmdWord) :
    illegalWord cw = true ↔ (opOf cw).toNat = 0 ∨ 12 ≤ (opOf cw).toNat
      ∨ (1 ≤ (opOf cw).toNat ∧ (opOf cw).toNat ≤ 7) ∧ (argOf cw).toNat ≠ 0
      ∨ ((opOf cw).toNat = 8 ∨ (opOf cw).toNat = 9) ∧ 6 < (argOf cw).toNat
      ∨ ((opOf cw).toNat = 10 ∨ (opOf cw).toNat = 11) ∧ 21 < (argOf cw).toNat := by
  simp only [illegalWord, opOf_toNat, argOf_toNat, Bool.or_eq_true, Bool.and_eq_true, decide_eq_true_eq]

/-- The listed words are the ones 30_encoding.md R94 does not list. -/
theorem illegalWord_iff (cw : CmdWord) : illegalWord cw = true ↔ cw ∉ legalWords := by
  simp only [legalWords, List.mem_append, mem_plainWords_iff, mem_map_range_iff (show 0x0800 + 7 ≤ 2 ^ 16 by decide),
    mem_map_range_iff (show 0x0900 + 7 ≤ 2 ^ 16 by decide), mem_map_range_iff (show 0x0A00 + 22 ≤ 2 ^ 16 by decide),
    mem_map_range_iff (show 0x0B00 + 22 ≤ 2 ^ 16 by decide), illegalWord_iff_opOf_argOf, opOf_toNat, argOf_toNat]
  omega

/-- What the argument-less form rejects. -/
theorem decodeNoArg_error {op arg : Byte} {i : Instr} {e : DecodeError} (h : decodeNoArg op arg i = .error e) : arg.toNat ≠ 0 := by
  intro h0
  rw [decodeNoArg, if_pos (BitVec.eq_of_toNat_eq h0)] at h
  cases h

/-- What the field form rejects. -/
theorem decodeField_error {arg : Byte} {k : PktField → Instr} {e : DecodeError} (h : decodeField arg k = .error e) :
    6 < arg.toNat := by
  by_contra hle
  obtain ⟨f, hf⟩ : ∃ f, fieldOfSelect arg.toNat = some f := by
    interval_cases arg.toNat <;> exact ⟨_, rfl⟩
  rw [decodeField, hf] at h
  cases h

/-- What the offset form rejects. -/
theorem decodeOffset_error {arg : Byte} {k : BitVec 5 → Instr} {e : DecodeError} (h : decodeOffset arg k = .error e) :
    21 < arg.toNat := by
  by_contra hle
  rw [decodeOffset, if_pos (by rw [Config.packetSize]; omega)] at h
  cases h

/-- A word that does not decode is one that R94 lists. -/
theorem illegalWord_of_decodeCommand_error {c : Command} {e : DecodeError} (h : decodeCommand c = .error e) :
    illegalWord c.cw = true := by
  rw [illegalWord_iff_opOf_argOf]
  unfold decodeCommand decodeOpArg at h
  split at h
  case h_1 | h_2 | h_3 | h_4 | h_5 | h_6 | h_7 => have := decodeNoArg_error h; omega
  case h_8 | h_9 => have := decodeField_error h; omega
  case h_10 | h_11 => have := decodeOffset_error h; omega
  case h_12 => simp only [imp_false] at *; omega

/-- A word decodes, with whatever operand, exactly when it is listed. -/
theorem decodeCommand_isOk_iff (c : Command) : (∃ i, decodeCommand c = .ok i) ↔ c.cw ∈ legalWords := by
  constructor
  · rintro ⟨i, hd⟩
    obtain ⟨_, hwf, wd, henc⟩ := decodeCommand_ok hd
    exact mem_legalWords_of_encode hwf henc
  · intro hmem
    cases hd : decodeCommand c with
    | ok i => exact ⟨i, rfl⟩
    | error e => exact absurd hmem ((illegalWord_iff c.cw).1 (illegalWord_of_decodeCommand_error hd))

/-- Settles O3: the listed words are those that decode and the complement of R94's list; any other ends its command with `ILLEGAL`. -/
theorem illegalWordsOnlySetRc : Obligations.IllegalWordsOnlySetRc := by
  refine ⟨decodeCommand_isOk_iff, rfl, by decide, illegalWord_iff, fun s c hb hp hc => ?_⟩
  rw [coreTurn_illegal hb hp hc, illegalCommand_idle hb]

/-- Settles O5: closed facts of the decoder, one per written-out word. -/
theorem writtenOutWordsDecode : Obligations.WrittenOutWordsDecode := by
  unfold Obligations.WrittenOutWordsDecode
  decide

end Sys2Proof.Machine
end

section
/-! O6: the assembler. -/

namespace Sys2Proof.Machine

/-- Settles O6: each line is assembled by evaluation. -/
theorem assemblerExamples : Obligations.AssemblerExamples := by
  unfold Obligations.AssemblerExamples
  decide

end Sys2Proof.Machine
end

section
/-! O11, O41: where the fields lie in a frame, and that `opCode` is carried and not interpreted. -/

namespace Sys2Proof.Machine

/-- The number of a run of bytes followed by another. -/
theorem frameNumber_append (acc : Nat) (l m : List Byte) : frameNumber acc (l ++ m) = frameNumber (frameNumber acc l) m := by
  induction l generalizing acc with
  | nil => rfl
  | cons b rest ih => exact ih _

/-- The four bytes of a field, behind what precedes them, put its value below. -/
theorem frameNumber_bytes4 (acc : Nat) (v : Word) : frameNumber acc (bytes4 v) = acc * 2 ^ 32 + v.toNat := by
  have := v.isLt
  simp only [bytes4, frameNumber, extract_toNat]
  omega

/-- The three bytes of the integrity field. -/
theorem frameNumber_bytes3 (acc : Nat) (v : Crc) : frameNumber acc (bytes3 v) = acc * 2 ^ 24 + v.toNat := by
  have := v.isLt
  simp only [bytes3, frameNumber, extract_toNat]
  omega

/-- The number of the content bytes: marker, then the six fields, from bit 0 of offset 18 up. -/
theorem frameNumber_content (p : Packet) :
    frameNumber 0 (content p) = 0x7E * 2 ^ 144 + p.id.toNat * 2 ^ 112 + p.clientId.toNat * 2 ^ 80 + p.opCode.toNat * 2 ^ 48
      + p.pin.toNat * 2 ^ 40 + p.pinMode.toNat * 2 ^ 32 + p.data.toNat := by
  have hsof : Config.sof.toNat = 0x7E := rfl
  simp only [content, frameNumber, frameNumber_append, frameNumber_bytes4, hsof]
  omega

/-- Settles O11: the frame is the content, read as a number, with the 24 bits of the CRC below it. -/
theorem frameLayout : Obligations.FrameLayout := by
  intro p
  have hcontent : (serialize p).take 19 = content p := contentOf_serialize p
  refine ⟨serialize_length p, ?_⟩
  rw [hcontent, serialize, frameNumber_append, frameNumber_bytes3, frameNumber_content]
  omega

/-- Offsets 9 to 12 of a frame are the bytes of `opCode` (30_encoding.md R81, R83). -/
theorem serialize_opCode_bytes (p : Packet) : ((serialize p).drop 9).take 4 = bytes4 p.opCode := rfl

/-- Settles O41: the five arms answer the state itself, and `opCode` goes through a frame as its four bytes. -/
theorem opCodeIsCarried : Obligations.OpCodeIsCarried := by
  refine ⟨fun s => ⟨rfl, rfl, rfl, rfl, rfl⟩, fun p => join4_extract p.opCode, fun p h => ?_, fun p h => ?_, fun s rest hs => ?_⟩
  · rw [serialize_opCode_bytes, h]; decide
  · rw [serialize_opCode_bytes, h]; decide
  · rw [step_cons hs, takeTurn, dispatchTurn_eq]

end Sys2Proof.Machine
end

section
/-! O42: a step runs what is decoded. -/

namespace Sys2Proof.Machine

/-- The idle core runs the instruction its presented command decodes to. -/
theorem coreTurn_of_decode {s : State} {c : Command} {i : Instr} (hb : s.busy = false) (hp : presented s = some c)
    (hd : decode (.command c) = .ok i) : coreTurn s = exec i s := by
  simp only [coreTurn_idle hb, runPresented, hp, hd]

/-- The node's dispatch runs the instruction `PKT.opCode` decodes to. -/
theorem dispatchTurn_of_decode {s : State} {i : Instr} (hb : s.busy = false) (hd : decode (.wireOpCode s.pkt.opCode) = .ok i) :
    dispatchTurn s = exec i s := by
  simp [dispatchTurn, hb, hd]

/-- Settles O42: with the turn taken off, the agent on turn runs the decoded instruction. -/
theorem stepRunsDecoded : Obligations.StepRunsDecoded := by
  refine ⟨fun s c i hb hs hp hd => ?_, fun s rest c i hb hs hp hd => ?_, fun s rest i hb hs hd => ?_⟩
  · exact (step_nil hs).trans (coreTurn_of_decode hb hp hd)
  · exact (step_cons hs).trans (coreTurn_of_decode (s := { s with schedule := rest }) hb hp hd)
  · exact (step_cons hs).trans (dispatchTurn_of_decode (s := { s with schedule := rest }) hb hd)

end Sys2Proof.Machine
end

section
/-! What `CRC24` makes of a change in its register or in a byte: shift steps are injective, and XOR passes through them (40_crc.md R110). -/

namespace Sys2Proof.Machine

/-- Equal registers after the same number of shift steps were equal before. -/
theorem crcShifts_injective {n : Nat} {c d : Crc} (h : crcShifts n c = crcShifts n d) : c = d := by
  rw [← xor_eq_zero_iff, ← crcShifts_xor] at h
  exact (xor_eq_zero_iff c d).1 (crcShifts_eq_zero h)

/-- As long as no 1 is shifted out, the polynomial is never added and each step doubles the register. -/
theorem crcShifts_toNat {n : Nat} {c : Crc} (h : c.toNat * 2 ^ n < 2 ^ 24) : (crcShifts n c).toNat = c.toNat * 2 ^ n := by
  induction n generalizing c with
  | zero => simp [crcShifts]
  | succ n ih =>
    have hdouble : 2 * c.toNat < 2 ^ 24 := by
      have := Nat.mul_le_mul_left c.toNat (Nat.one_le_two_pow (n := n))
      rw [Nat.pow_succ, ← Nat.mul_assoc] at h
      omega
    have hmsb : c.msb = false := BitVec.msb_eq_false_iff_two_mul_lt.2 hdouble
    have hshift : (crcShift c).toNat = c.toNat * 2 := by
      simp only [crcShift, hmsb, BitVec.toNat_shiftLeft, Nat.shiftLeft_eq, Bool.false_eq_true, if_false]
      omega
    have hpow : (crcShift c).toNat * 2 ^ n = c.toNat * 2 ^ (n + 1) := by rw [hshift, Nat.mul_assoc, ← Nat.pow_succ']
    rw [crcShifts, ih (hpow ▸ h), hpow]

/-- A byte as it enters bits 23:16 of the register. -/
theorem toNat_byte_shiftLeft (b : Byte) : (b.setWidth 24 <<< 16 : Crc).toNat = b.toNat * 2 ^ 16 := by
  have := b.isLt
  simp only [BitVec.toNat_shiftLeft, BitVec.toNat_setWidth, Nat.shiftLeft_eq]
  omega

/-- Bit `j` of a byte enters the register as a 1 shifted in `16 + j` steps. -/
theorem byteBit_shiftLeft {j : Nat} (h : j < 8) : (((1 <<< j : Nat) : Byte).setWidth 24 <<< 16 : Crc) = crcShifts (16 + j) 1 := by
  have hbit : ((1 <<< j : Nat) : Byte).toNat = 2 ^ j := by
    rw [Nat.one_shiftLeft]
    exact Nat.mod_eq_of_lt (Nat.pow_lt_pow_right one_lt_two h)
  have hpow : 2 ^ (16 + j) < 2 ^ 24 := Nat.pow_lt_pow_right one_lt_two (by omega)
  apply BitVec.eq_of_toNat_eq
  rw [toNat_byte_shiftLeft, hbit, crcShifts_toNat (by simpa using hpow), Nat.pow_add]
  simp [Nat.mul_comm]

/-- A change of the register before a run of bytes reaches its end shifted by eight steps per byte. -/
theorem crcFrom_xor (c d : Crc) (l : List Byte) : crcFrom (c ^^^ d) l = crcFrom c l ^^^ crcShifts (8 * l.length) d := by
  induction l generalizing c d with
  | nil => rfl
  | cons b rest ih =>
    have hbyte : crcByte (c ^^^ d) b = crcByte c b ^^^ crcShifts 8 d := by
      rw [crcByte_eq, crcByte_eq, crcShifts_xor, BitVec.xor_assoc, BitVec.xor_assoc, BitVec.xor_comm (crcShifts 8 d)]
    calc crcFrom (crcByte (c ^^^ d) b) rest
        = crcFrom (crcByte c b) rest ^^^ crcShifts (8 * rest.length) (crcShifts 8 d) := by rw [hbyte, ih]
      _ = crcFrom (crcByte c b) rest ^^^ crcShifts (8 * (rest.length + 1)) d := by
        rw [← crcShifts_add, Nat.mul_succ, Nat.add_comm 8]

/-- A change of a byte changes the register as the byte's own eight steps say. -/
theorem crcByte_xor (c : Crc) (b e : Byte) : crcByte c (b ^^^ e) = crcByte c b ^^^ crcShifts 8 (e.setWidth 24 <<< 16) := by
  rw [crcByte_eq, crcByte_eq, BitVec.setWidth_xor, BitVec.shiftLeft_xor_distrib, crcShifts_xor, BitVec.xor_assoc]

/-- The first byte decides: equal sequences after it give equal values only after equal first bytes. -/
theorem crc24_cons_injective {x y : Byte} {l : List Byte} (h : crc24 (x :: l) = crc24 (y :: l)) : x = y := by
  rw [crc24_eq_crcFrom, crc24_eq_crcFrom] at h
  have hbyte : crcByte Config.crcInit x = crcByte Config.crcInit y := crcFrom_injective (l := l) h
  have hshift := (BitVec.xor_right_inj _).1 (crcShifts_injective hbyte)
  have hnat := congrArg BitVec.toNat hshift
  rw [toNat_byte_shiftLeft, toNat_byte_shiftLeft] at hnat
  exact BitVec.eq_of_toNat_eq (by omega)

end Sys2Proof.Machine
end

section
/-! O8: the residue of a sequence followed by its own CRC (40_crc.md R117). -/

namespace Sys2Proof.Machine

/-- The register takes its own highest byte: it cancels, and the two others move up. -/
theorem crcByte_join3_self (a b c : Byte) : crcByte (join3 a b c) a = join3 b c 0 := by
  have hb := b.isLt
  have hc := c.isLt
  have htop : (a.setWidth 24 <<< 16 : Crc) = join3 a 0 0 :=
    BitVec.eq_of_toNat_eq ((toNat_byte_shiftLeft a).trans (by simp [join3_toNat]))
  have hcancel : join3 a b c ^^^ (a.setWidth 24 <<< 16) = join3 0 b c := by
    rw [htop, join3, join3, BitVec.xor_append, BitVec.xor_append, BitVec.xor_self]
    simp [join3]
  have hlow : (join3 0 b c).toNat = b.toNat * 2 ^ 8 + c.toNat := by simp [join3_toNat]
  apply BitVec.eq_of_toNat_eq
  calc (crcByte (join3 a b c) a).toNat
      = (b.toNat * 2 ^ 8 + c.toNat) * 2 ^ 8 := by rw [crcByte, hcancel, crcShifts_toNat (by omega), hlow]
    _ = (join3 b c 0).toNat := by rw [join3_toNat, show (0 : Byte).toNat = 0 from rfl]; omega

/-- The three bytes of a value take the register from that value, and from no other, to 0. -/
theorem crcFrom_bytes3_eq_zero_iff (c v : Crc) : crcFrom c (bytes3 v) = 0 ↔ c = v := by
  have hself : crcFrom v (bytes3 v) = 0 := by
    obtain ⟨a, b, d, rfl⟩ : ∃ a b d, v = join3 a b d := ⟨_, _, _, (join3_extract v).symm⟩
    rw [bytes3_join3]
    simp only [crcFrom, crcByte_join3_self]
    rfl
  exact ⟨fun h => crcFrom_injective (h.trans hself.symm), fun h => h ▸ hself⟩

/-- Settles O8: the CRC of a whole image is the register of its content run over its last three bytes. -/
theorem crcResidue : Obligations.CrcResidue := by
  refine ⟨fun m => ?_, fun b hlen => ?_⟩
  · rw [crc24_eq_crcFrom, crcFrom_append, ← crc24_eq_crcFrom, crcFrom_bytes3_eq_zero_iff]
  · have hcrc : crc24 b = crcFrom (crc24 (contentOf b)) (bytes3 (deserialize b).crc) := by
      rw [← drop_eq_bytes3_deserialize hlen, crc24_eq_crcFrom, crc24_eq_crcFrom, ← crcFrom_append, contentOf, List.take_append_drop]
    rw [hcrc, crcFrom_bytes3_eq_zero_iff]
    refine ⟨fun h => ?_, fun ⟨h0, h⟩ => (acceptable_iff_crc hlen h0).2 h⟩
    have h0 := ((acceptable_iff b).1 h).2.1
    exact ⟨h0, (acceptable_iff_crc hlen h0).1 h⟩

end Sys2Proof.Machine
end

section
/-! O9: detection of one and two flipped bits (40_crc.md R116). -/

namespace Sys2Proof.Machine

/-- How many shift steps a 1 takes on its way from bit `j` of an `n`-byte sequence to the end of the sequence: 8 for each byte from its own on,
after the `16 + j % 8` that put it where its byte enters the register. -/
def flipShifts (n j : Nat) : Nat := 8 * (n - j / 8) + (16 + j % 8)

theorem flipShifts_injective {n j k : Nat} (hj : j < 8 * n) (hk : k < 8 * n) (h : flipShifts n j = flipShifts n k) : j = k := by
  simp only [flipShifts] at h
  omega

@[simp] theorem flipBit_length (j : Nat) (l : List Byte) : (flipBit j l).length = l.length := by
  induction l generalizing j with
  | nil => rfl
  | cons b rest ih =>
    unfold flipBit
    split
    · rfl
    · exact congrArg Nat.succ (ih (j - 8))

/-- What a flipped bit does to the register does not depend on the bytes: it adds a 1, shifted to the end of the sequence. -/
theorem crcFrom_flipBit (c : Crc) {j : Nat} {l : List Byte} (h : j < 8 * l.length) :
    crcFrom c (flipBit j l) = crcFrom c l ^^^ crcShifts (flipShifts l.length j) 1 := by
  induction l generalizing c j with
  | nil => simp at h
  | cons b rest ih =>
    rw [List.length_cons] at h ⊢
    by_cases hj : j < 8
    · have hsteps : flipShifts (rest.length + 1) j = 16 + j + 8 + 8 * rest.length := by simp only [flipShifts]; omega
      calc crcFrom c (flipBit j (b :: rest))
          = crcFrom (crcByte c (b ^^^ (1 <<< j))) rest := by rw [flipBit, if_pos hj, crcFrom]
        _ = crcFrom (crcByte c b ^^^ crcShifts (16 + j + 8) 1) rest := by rw [crcByte_xor, byteBit_shiftLeft hj, ← crcShifts_add]
        _ = crcFrom c (b :: rest) ^^^ crcShifts (flipShifts (rest.length + 1) j) 1 := by
          rw [crcFrom_xor, ← crcShifts_add, ← hsteps, crcFrom]
    · have hsteps : flipShifts (rest.length + 1) j = flipShifts rest.length (j - 8) := by simp only [flipShifts]; omega
      rw [flipBit, if_neg hj, crcFrom, ih _ (by omega), hsteps, crcFrom]

/-- No run of 1 to 151 shift steps brings a 1 back: the order of `x` modulo the polynomial is greater. -/
theorem crcShifts_one_ne_one : ∀ n, n < 152 → 0 < n → crcShifts n 1 ≠ 1 := by decide +kernel

/-- Two 1s shifted by numbers of steps less than 152 apart are equal only when the numbers are. -/
theorem crcShifts_one_injective {m n : Nat} (hm : m < n + 152) (hn : n < m + 152) (h : crcShifts m 1 = crcShifts n 1) : m = n := by
  wlog hle : m ≤ n generalizing m n
  · exact (this hn hm h.symm (by omega)).symm
  obtain ⟨d, rfl⟩ := Nat.exists_eq_add_of_le' hle
  rw [crcShifts_add] at h
  by_contra hne
  exact crcShifts_one_ne_one d (by omega) (by omega) (crcShifts_injective h).symm

/-- Settles O9: one flip adds a shifted 1, which is not 0; two flips add two 1s shifted by different numbers of steps. -/
theorem crcDetectsOneAndTwoFlips : Obligations.CrcDetectsOneAndTwoFlips := by
  intro b hlen j k hj hk
  have hjl : j < 8 * b.length := by omega
  have hkl : k < 8 * b.length := by omega
  simp only [crc24_eq_crcFrom]
  refine ⟨fun h => ?_, fun hne h => hne ?_⟩
  · rw [crcFrom_flipBit _ hjl, xor_left_eq_self_iff] at h
    exact absurd (crcShifts_eq_zero h) (by decide)
  · rw [crcFrom_flipBit _ (by rwa [flipBit_length]), crcFrom_flipBit _ hkl, flipBit_length, BitVec.xor_assoc, xor_left_eq_self_iff,
      xor_eq_zero_iff] at h
    refine (flipShifts_injective hkl hjl (crcShifts_one_injective ?_ ?_ h)).symm <;> simp only [flipShifts] <;> omega

end Sys2Proof.Machine
end

section
/-! O10, O14, O20, O21: the commands `CRC` and `VAL` (40_crc.md R112 to R115). -/

namespace Sys2Proof.Machine

/-- The content of a frame is its first 19 bytes. -/
theorem take_serialize (p : Packet) : (serialize p).take 19 = content p := contentOf_serialize p

/-- The content of an image is its byte 0 and the 18 bytes after it. -/
theorem contentOf_eq_cons {b : List Byte} (h : b.length = Config.packetSize) : contentOf b = byteAt b 0 :: (contentOf b).drop 1 := by
  cases b with
  | nil => cases h
  | cons x rest => rfl

/-- The fields of an image and its content have the same CRC exactly when the image begins with the marker (40_crc.md R114). -/
theorem crc24_content_deserialize_iff {b : List Byte} (h : b.length = Config.packetSize) :
    crc24 (content (deserialize b)) = crc24 (contentOf b) ↔ byteAt b 0 = Config.sof := by
  rw [content_deserialize h]
  constructor
  · intro heq
    rw [contentOf_eq_cons h] at heq
    exact (crc24_cons_injective heq).symm
  · intro h0
    rw [← h0, ← contentOf_eq_cons h]

/-- A packet taken from an image with the marker is valid exactly when the image is an acceptable frame. -/
theorem packetValid_deserialize {b : List Byte} (h : b.length = Config.packetSize) (h0 : byteAt b 0 = Config.sof) :
    packetValid (deserialize b) = acceptable b := by
  rw [Bool.eq_iff_iff, acceptable_iff_crc h h0, packetValid, decide_eq_true_iff, (crc24_content_deserialize_iff h).2 h0]

/-- The packet taken from a serialized packet is valid. -/
theorem packetValid_deserialize_serialize (p : Packet) : packetValid (deserialize (serialize p)) = true := by
  rw [packetValid_deserialize (serialize_length p) rfl, acceptable_serialize]

/-- Settles O10: `DES` leaves `BUF` as it is and `PKT` the fields of `BUF`. -/
theorem fieldFormAgreesWithBufferForm : Obligations.FieldFormAgreesWithBufferForm := by
  intro s hb
  refine ⟨_, exec_des_idle hb, ?_⟩
  have hbuf : bufFrame (endOk (setPkt (deserialize (bufFrame s)) s)) = bufFrame s := bufFrame_of_buf_eq rfl rfl
  rw [hbuf, take_serialize, ← byteAt_bufFrame s (by decide)]
  exact crc24_content_deserialize_iff (bufFrame_length s)

/-- Settles O14: `SER` leaves the serialized packet in `BUF`, and the packet `DES` takes from it is valid. -/
theorem integrityLaw : Obligations.IntegrityLaw := by
  intro s hb
  refine ⟨_, _, _, exec_ser_idle hb, exec_des_idle rfl, exec_val_idle rfl, ?_, rfl⟩
  have hbuf : bufFrame (endOk (setRes frameSizeWord (serializeToBuf s))) = serialize s.pkt :=
    bufFrame_of_buf_serialize (serializeToBuf_buf s) rfl
  calc truthWord (packetValid (deserialize (bufFrame (endOk (setRes frameSizeWord (serializeToBuf s))))))
      = truthWord (packetValid (deserialize (serialize s.pkt))) := by rw [hbuf]
    _ = 1 := by rw [packetValid_deserialize_serialize]; rfl

/-- Leaving a result on an idle core writes only `RES`, `RC` and the program's index. -/
theorem endOk_setRes_idle {s : State} (hb : s.busy = false) (v : Word) :
    endOk (setRes v s) = { s with res := v, rc := .ok, pc := s.pc + 1 } :=
  endCommand_idle (s := setRes v s) hb .ok

/-- The word `CRC` leaves has the value of the CRC. -/
theorem zextCrc_toNat (c : Crc) : (zextCrc c).toNat = c.toNat :=
  BitVec.toNat_setWidth_of_le (by decide)

/-- The content of `BUF` is its bytes 0 to 18. -/
theorem contentOf_bufFrame (s : State) : contentOf (bufFrame s) = (List.range 19).map (bufByte s) := rfl

/-- Settles O20: the meaning of `CRC` on an idle core. -/
theorem crcResult : Obligations.CrcResult := by
  refine ⟨fun wd => decodeCommand_of_encode (i := .crc) rfl rfl wd, fun s hb => ⟨_, exec_crc_idle hb, ?_, ?_⟩⟩
  · rw [← contentOf_bufFrame]
    exact zextCrc_toNat _
  · exact endOk_setRes_idle hb _

/-- `VAL` on an idle core writes only `RES`, `RC` and the program's index. -/
theorem exec_val_eq {s : State} (hb : s.busy = false) :
    exec .val s = .next { s with res := truthWord (packetValid s.pkt), rc := .ok, pc := s.pc + 1 } := by
  rw [exec_val_idle hb, endOk_setRes_idle hb]

/-- Settles O21: the truth value `VAL` leaves is whether the two CRCs are equal. -/
theorem valResult : Obligations.ValResult := by
  refine ⟨fun wd => decodeCommand_of_encode (i := .val) rfl rfl wd, fun s hb h => ?_, fun s hb h => ?_, by decide +kernel⟩
  · rw [take_serialize] at h
    rw [exec_val_eq hb, packetValid, decide_eq_true h]
    rfl
  · rw [take_serialize] at h
    rw [exec_val_eq hb, packetValid, decide_eq_false h]
    rfl

end Sys2Proof.Machine
end

section
/-! O7: the special values of `CRC24` (40_crc.md R118). -/

namespace Sys2Proof.Machine

/-- Settles O7: each value is computed bit by bit, by evaluation. -/
theorem crc24SpecialValues : Obligations.Crc24SpecialValues := by
  unfold Obligations.Crc24SpecialValues
  decide +kernel

end Sys2Proof.Machine
end

section
/-! O12, O13, O18: the pair `Serialize` and `Deserialize`, and the commands `SER` and `DES` that run it on `BUF` (41_marshal.md R132 to
R137). -/

namespace Sys2Proof.Machine

/-- Deserializing a serialized packet gives its six fields back, and in `crc` the CRC of the content (41_marshal.md R136). -/
theorem deserialize_serialize (p : Packet) : deserialize (serialize p) = { p with crc := crc24 (content p) } := by
  have hcrc : (deserialize (serialize p)).crc = crc24 (content p) :=
    bytes3_injective ((drop_eq_bytes3_deserialize (serialize_length p)).symm.trans (drop_serialize p))
  exact Packet.ext (join4_extract p.id) (join4_extract p.clientId) (join4_extract p.opCode) rfl rfl (join4_extract p.data) hcrc

/-- The content rebuilt from an image that begins with the marker is the image's own. -/
theorem content_deserialize_of_marker {b : List Byte} (h : b.length = Config.packetSize) (h0 : byteAt b 0 = Config.sof) :
    content (deserialize b) = contentOf b := by
  rw [content_deserialize h, ← h0, ← contentOf_eq_cons h]

/-- Serializing a deserialized image keeps bytes 1 to 18 (41_marshal.md R137). -/
theorem serialize_deserialize_middle {b : List Byte} (h : b.length = Config.packetSize) :
    ((serialize (deserialize b)).drop 1).take 18 = (b.drop 1).take 18 := by
  have hlen : ((contentOf b).drop 1).length = 18 := by simp [contentOf, h, Config.contentLen, Config.packetSize]
  calc ((serialize (deserialize b)).drop 1).take 18
      = ((contentOf b).drop 1 ++ bytes3 (crc24 (content (deserialize b)))).take 18 := by
        rw [serialize, content_deserialize h]; rfl
    _ = (contentOf b).drop 1 := List.take_left' hlen
    _ = (b.drop 1).take 18 := List.drop_take

/-- Bytes 1 to 18 kept, one by one. -/
theorem byteAt_serialize_deserialize {b : List Byte} (h : b.length = Config.packetSize) {k : Nat} (h1 : 1 ≤ k) (h18 : k ≤ 18) :
    byteAt (serialize (deserialize b)) k = byteAt b k := by
  have hk := congrArg (fun l : List Byte => l[k - 1]?) (serialize_deserialize_middle h)
  simp only [List.getElem?_take, List.getElem?_drop, if_pos (show k - 1 < 18 by omega), Nat.add_sub_cancel' h1] at hk
  simp only [byteAt, List.getD_eq_getElem?_getD, hk]

/-- Serializing a deserialized image gives the image back exactly when it is an acceptable frame (41_marshal.md R137). -/
theorem serialize_deserialize_iff {b : List Byte} (h : b.length = Config.packetSize) :
    serialize (deserialize b) = b ↔ acceptable b = true := by
  constructor
  · intro heq
    rw [← heq]
    exact acceptable_serialize _
  · intro hacc
    obtain ⟨_, h0, hcrc⟩ := (acceptable_iff b).1 hacc
    rw [serialize, content_deserialize_of_marker h h0, ← hcrc]
    exact List.take_append_drop _ _

/-- `SER` leaves the serialized packet in `BUF` (41_marshal.md R133). -/
theorem bufFrame_ser (s : State) : bufFrame (endOk (setRes frameSizeWord (serializeToBuf s))) = serialize s.pkt :=
  bufFrame_of_buf_serialize (serializeToBuf_buf s) rfl

/-- `SER` leaves every byte past the 22 as it was. -/
theorem bufByte_ser (s : State) {a : Nat} (ha : 22 ≤ a) : bufByte (endOk (setRes frameSizeWord (serializeToBuf s))) a = bufByte s a :=
  (bufByte_writeFrame s (serialize s.pkt) a).trans (if_neg (Nat.not_lt_of_le ha))

/-- Settles O12: `SER` leaves the serialized packet in `BUF`, and `DES` deserializes it. -/
theorem serializeThenDeserialize : Obligations.SerializeThenDeserialize := by
  refine ⟨fun p => ?_, fun s hb => ⟨_, _, exec_ser_idle hb, exec_des_idle rfl, ?_⟩⟩
  · rw [take_serialize, deserialize_serialize]
  · rw [take_serialize, ← deserialize_serialize]
    exact congrArg deserialize (bufFrame_ser s)

/-- Settles O13: `DES` then `SER` leave in `BUF` what the pair of functions makes of the old `BUF`. -/
theorem deserializeThenSerialize : Obligations.DeserializeThenSerialize := by
  refine ⟨fun b hlen => ⟨serialize_deserialize_middle hlen, serialize_deserialize_iff hlen⟩,
    fun s hb => ⟨_, _, exec_des_idle hb, exec_ser_idle rfl, ?_, fun k h1 h18 => ?_⟩⟩
  · rw [bufFrame_ser]
    exact acceptable_serialize _
  · have hk : k < Config.packetSize := by rw [Config.packetSize]; omega
    rw [← byteAt_bufFrame _ hk, bufFrame_ser, ← byteAt_bufFrame s hk]
    exact byteAt_serialize_deserialize (bufFrame_length s) h1 h18

/-- Settles O18: `BUF` is the serialized packet, and a byte past the 22 is not written. -/
theorem serResult : Obligations.SerResult := by
  refine ⟨fun wd => decodeCommand_of_encode (i := .ser) rfl rfl wd,
    fun s hb => ⟨_, exec_ser_idle hb, bufFrame_ser s, ?_, ?_, fun a ha => bufByte_ser s ha⟩⟩
  · rw [bufFrame_ser]
    exact acceptable_serialize _
  · exact endCommand_idle (s := setRes frameSizeWord (serializeToBuf s)) hb .ok

end Sys2Proof.Machine
end

section
/-! O15: running a local command again (41_marshal.md R138). -/

namespace Sys2Proof.Machine

/-- Writing a byte already listed at its offset leaves the state as it is. -/
theorem writeBuf_of_eq {a : Nat} {v : Byte} {s : State} (h : Memory.write s.buf a v = s.buf) : writeBuf a v s = s := by
  rw [writeBuf, h]

/-- Writing a frame already listed leaves the state as it is. -/
theorem writeFrame_of_eq {l : List Byte} {s : State} (h : Memory.writeAll s.buf 0 l = s.buf) : writeFrame l s = s := by
  rw [writeFrame, h]

/-- Writing the same value to the same field again changes nothing. -/
theorem fieldWrite_fieldWrite_self (p : Packet) (f : PktField) (v : Word) : fieldWrite (fieldWrite p f v) f v = fieldWrite p f v := by
  cases f <;> rfl

/-- Leaving a result does not touch `BUF`. -/
theorem bufFrame_endOk_setRes (v : Word) (s : State) : bufFrame (endOk (setRes v s)) = bufFrame s := bufFrame_of_buf_eq rfl rfl

/-- What a local command has done that takes `s` to `t`: nothing to the transport and the events, and from `t` on it only ends
again, with the same code. -/
structure LocalWork (i : Instr) (s t : State) : Prop where
  rx : t.rx = s.rx
  rxpos : t.rxpos = s.rxpos
  out : t.out = s.out
  idle : t.busy = false
  again : exec i t = .next (endCommand t.rc t)

/-- A command that writes `PKT` and would write the same packet again. -/
theorem localWork_setPkt {i : Instr} {s : State} {p p' : Packet}
    (h : exec i (endOk (setPkt p s)) = .next (endOk (setPkt p' (endOk (setPkt p s))))) (hp : p' = p) :
    LocalWork i s (endOk (setPkt p s)) := by
  subst hp
  exact ⟨rfl, rfl, rfl, rfl, h⟩

/-- A command that writes `RES` and would write the same result again. -/
theorem localWork_setRes {i : Instr} {s : State} {v v' : Word}
    (h : exec i (endOk (setRes v s)) = .next (endOk (setRes v' (endOk (setRes v s))))) (hv : v' = v) :
    LocalWork i s (endOk (setRes v s)) := by
  subst hv
  exact ⟨rfl, rfl, rfl, rfl, h⟩

/-- A local command that answers a next state would, from there, write again what it has written: no local command changes what it
computes its result from. -/
theorem localWork_of_exec {i : Instr} {s t : State} (hi : isLocalCommand i = true) (he : exec i s = .next t) : LocalWork i s t := by
  have hb : s.busy = false := exec_next_idle (Bool.and_eq_true_iff.1 hi).1 he
  cases i with
  | clr => rw [exec_clr_idle hb] at he; cases he; exact localWork_setPkt (exec_clr_idle rfl) rfl
  | des =>
    rw [exec_des_idle hb] at he; cases he
    exact localWork_setPkt (exec_des_idle rfl) (congrArg _ (bufFrame_of_buf_eq rfl rfl))
  | setf f v =>
    rw [exec_setf_idle hb] at he; cases he
    exact localWork_setPkt (exec_setf_idle rfl f v) (fieldWrite_fieldWrite_self s.pkt f v)
  | crc =>
    rw [exec_crc_idle hb] at he; cases he
    exact localWork_setRes (exec_crc_idle rfl) (by rw [bufFrame_endOk_setRes])
  | val => rw [exec_val_idle hb] at he; cases he; exact localWork_setRes (exec_val_idle rfl) (by rw [endOk_pkt, setRes_pkt])
  | getf f => rw [exec_getf_idle hb] at he; cases he; exact localWork_setRes (exec_getf_idle rfl f) rfl
  | rdb a =>
    cases ha : offsetLegal a with
    | true =>
      rw [exec_rdb_idle hb ha] at he; cases he
      exact localWork_setRes (exec_rdb_idle rfl ha) (congrArg _ (bufByte_of_buf_eq rfl rfl _))
    | false => rw [exec_rdb_illegal hb ha] at he; cases he; exact ⟨rfl, rfl, rfl, rfl, exec_rdb_illegal rfl ha⟩
  | ser =>
    rw [exec_ser_idle hb] at he; cases he
    refine ⟨rfl, rfl, rfl, rfl, ?_⟩
    rw [exec_ser_idle rfl, serializeToBuf, writeFrame_of_eq (Memory.writeAll_writeAll_self (serialize s.pkt) s.buf 0)]
    rfl
  | wrb a v =>
    cases ha : offsetLegal a with
    | true =>
      rw [exec_wrb_idle hb ha] at he; cases he
      refine ⟨rfl, rfl, rfl, rfl, ?_⟩
      rw [exec_wrb_idle rfl ha, writeBuf_of_eq (Memory.write_write_self s.buf a.toNat (truncByte v))]
      rfl
    | false => rw [exec_wrb_illegal hb ha] at he; cases he; exact ⟨rfl, rfl, rfl, rfl, exec_wrb_illegal rfl ha v⟩
  | recv | send | opCode1000 | opCode1001 | opCode1002 | opCode1003 | opCode1004 => cases hi

/-- Settles O15: the second run only ends once more, with the code `RC` already holds. -/
theorem localCommandsIdempotent : Obligations.LocalCommandsIdempotent := by
  intro i s t hi he
  obtain ⟨hrx, hrxpos, hout, hidle, hagain⟩ := localWork_of_exec hi he
  exact ⟨hagain.trans (congrArg _ (endCommand_idle hidle t.rc)), hrx, hrxpos, hout, hidle⟩

end Sys2Proof.Machine
end

section
/-! O17, O19, O22 to O25: `CLR`, `DES` and the field and byte access commands (41_marshal.md R131, R135, R140 to R143). -/

namespace Sys2Proof.Machine

/-- Writing the packet on an idle core writes only `PKT`, `RC` and the program's index. -/
theorem endOk_setPkt_idle {s : State} (hb : s.busy = false) (p : Packet) :
    endOk (setPkt p s) = { s with pkt := p, rc := .ok, pc := s.pc + 1 } :=
  endCommand_idle (s := setPkt p s) hb .ok

/-- Settles O17: the meaning of `CLR` on an idle core, and the value 0 is none of the five. -/
theorem clrResult : Obligations.ClrResult := by
  refine ⟨fun wd => decodeCommand_of_encode (i := .clr) rfl rfl wd, fun s hb => ?_, by decide⟩
  rw [exec_clr_idle hb, endOk_setPkt_idle hb]
  rfl

/-- The packet `DES` takes from `BUF`, by the bytes it reads (41_marshal.md R134). -/
theorem deserialize_bufFrame (s : State) :
    deserialize (bufFrame s) = {
      id := join4 (bufByte s 1) (bufByte s 2) (bufByte s 3) (bufByte s 4)
      clientId := join4 (bufByte s 5) (bufByte s 6) (bufByte s 7) (bufByte s 8)
      opCode := join4 (bufByte s 9) (bufByte s 10) (bufByte s 11) (bufByte s 12)
      pin := bufByte s 13
      pinMode := bufByte s 14
      data := join4 (bufByte s 15) (bufByte s 16) (bufByte s 17) (bufByte s 18)
      crc := join3 (bufByte s 19) (bufByte s 20) (bufByte s 21) } := rfl

/-- Settles O19: each field `DES` loads is the number its bytes of `BUF` make, the first byte on top. -/
theorem desResult : Obligations.DesResult := by
  refine ⟨fun wd => decodeCommand_of_encode (i := .des) rfl rfl wd, fun s hb => ⟨_, exec_des_idle hb, ?_⟩⟩
  rw [deserialize_bufFrame]
  exact ⟨join4_toNat _ _ _ _, join4_toNat _ _ _ _, join4_toNat _ _ _ _, rfl, rfl, join4_toNat _ _ _ _, join3_toNat _ _ _,
    endOk_setPkt_idle hb _⟩

/-- A command word as the sum of its two bytes' values (30_encoding.md R90). -/
theorem mkWord_zero_add (op arg : Byte) : mkWord op 0 + arg.setWidth 16 = mkWord op arg := by
  apply BitVec.eq_of_toNat_eq
  have hop := op.isLt
  have harg := arg.isLt
  rw [BitVec.toNat_add, mkWord_toNat, mkWord_toNat, BitVec.toNat_setWidth_of_le (by decide)]
  simp only [BitVec.ofNat_eq_ofNat, BitVec.toNat_ofNat]
  omega

/-- The decoder on a word written as such a sum. -/
theorem decodeCommand_add (op arg : Byte) (wd : Word) :
    decodeCommand ⟨mkWord op 0 + arg.setWidth 16, wd⟩ = decodeOpArg op arg wd := by
  rw [mkWord_zero_add, decodeCommand_mkWord]

/-- An argument of `GETF` or `SETF` above 6 makes an illegal word (30_encoding.md R94). -/
theorem reservedField_not_mem_legalWords {op arg : Byte} (hop : op.toNat = 8 ∨ op.toNat = 9) (harg : 6 < arg.toNat) :
    mkWord op 0 + arg.setWidth 16 ∉ legalWords := by
  rw [mkWord_zero_add, ← illegalWord_iff, illegalWord_iff_opOf_argOf, opOf_mkWord, argOf_mkWord]
  omega

/-- No command takes an argument above 21 (30_encoding.md R94). -/
theorem reservedOffset_not_mem_legalWords {op arg : Byte} (harg : 21 < arg.toNat) :
    mkWord op 0 + arg.setWidth 16 ∉ legalWords := by
  rw [mkWord_zero_add, ← illegalWord_iff, illegalWord_iff_opOf_argOf, opOf_mkWord, argOf_mkWord]
  omega

/-- An illegal word does not decode. -/
theorem decodeCommand_error_of_not_mem {cw : CmdWord} (h : cw ∉ legalWords) (wd : Word) : ∃ e, decodeCommand ⟨cw, wd⟩ = .error e := by
  cases hd : decodeCommand ⟨cw, wd⟩ with
  | ok i => exact absurd ((decodeCommand_isOk_iff ⟨cw, wd⟩).1 ⟨i, hd⟩) h
  | error e => exact ⟨e, rfl⟩

/-- An illegal word presented to the idle core writes only `RC` and the program's index. -/
theorem coreTurn_illegal_idle {s : State} {c : Command} (hc : c.cw ∉ legalWords) (hb : s.busy = false) (hp : presented s = some c) :
    coreTurn s = .next { s with rc := .illegal, pc := s.pc + 1 } := by
  rw [coreTurn_illegal hb hp hc, illegalCommand_idle hb]

/-- Settles O22: a select above 6 makes an illegal word, and the word `GETF` leaves has the field's value. -/
theorem getfResult : Obligations.GetfResult := by
  have hill (arg : Byte) : 6 < arg.toNat → 0x0800 + arg.setWidth 16 ∉ legalWords :=
    reservedField_not_mem_legalWords (op := 0x08) (Or.inl rfl)
  refine ⟨fun f wd => ?_, fun arg wd h => decodeCommand_error_of_not_mem (hill arg h) wd,
    fun arg wd s h => coreTurn_illegal_idle (hill arg h), fun f s hb => ?_⟩
  · exact (decodeCommand_add 0x08 _ wd).trans (decodeField_eq_ok.2 ⟨f, rfl, rfl⟩)
  · exact ⟨_, exec_getf_idle hb f, fieldRead_toNat s.pkt f, endOk_setRes_idle hb _⟩

/-- Settles O23: a select above 6 makes an illegal word, and writing a field truncates to its width and keeps the others. -/
theorem setfResult : Obligations.SetfResult := by
  have hill (arg : Byte) : 6 < arg.toNat → 0x0900 + arg.setWidth 16 ∉ legalWords :=
    reservedField_not_mem_legalWords (op := 0x09) (Or.inr rfl)
  refine ⟨fun f wd => ?_, fun arg wd h => decodeCommand_error_of_not_mem (hill arg h) wd,
    fun arg wd s h => coreTurn_illegal_idle (hill arg h), fun f v s hb => ⟨_, exec_setf_idle hb f v, ?_, fun g hg => ?_, ?_⟩⟩
  · exact (decodeCommand_add 0x09 _ wd).trans (decodeField_eq_ok.2 ⟨f, rfl, rfl⟩)
  · exact (fieldNat_fieldWrite s.pkt f f v).trans (if_pos rfl)
  · exact (fieldNat_fieldWrite s.pkt f g v).trans (if_neg hg)
  · exact endOk_setPkt_idle hb _

/-- The offset form reads a legal argument as it is (30_encoding.md R93). -/
theorem decodeOffset_of_le {arg : Byte} (h : arg.toNat ≤ 21) (k : BitVec 5 → Instr) : decodeOffset arg k = .ok (k (arg.setWidth 5)) :=
  if_pos (Nat.lt_succ_of_le h)

/-- Settles O24: an offset above 21 makes an illegal word, and the word `RDB` leaves has the value of the byte. -/
theorem rdbResult : Obligations.RdbResult := by
  have hill (arg : Byte) : 21 < arg.toNat → 0x0A00 + arg.setWidth 16 ∉ legalWords :=
    reservedOffset_not_mem_legalWords (op := 0x0A)
  refine ⟨fun arg wd h => ?_, fun arg wd h => decodeCommand_error_of_not_mem (hill arg h) wd,
    fun arg wd s h => coreTurn_illegal_idle (hill arg h), fun i s hb hi => ?_⟩
  · exact (decodeCommand_add 0x0A arg wd).trans (decodeOffset_of_le h _)
  · exact ⟨_, exec_rdb_idle hb ((offsetLegal_iff i).2 hi), zextByte_toNat _, endOk_setRes_idle hb _⟩

/-- The bytes of `BUF` after a `WRB`. -/
theorem bufByte_wrb (s : State) (a b : Nat) (v : Byte) : bufByte (endOk (writeBuf a v s)) b = if a = b then v else bufByte s b :=
  bufByte_writeBuf s a b v

/-- Settles O25: an offset above 21 makes an illegal word, and `WRB` writes the low byte of its operand at its offset alone. -/
theorem wrbResult : Obligations.WrbResult := by
  have hill (arg : Byte) : 21 < arg.toNat → 0x0B00 + arg.setWidth 16 ∉ legalWords :=
    reservedOffset_not_mem_legalWords (op := 0x0B)
  refine ⟨fun arg wd h => ?_, fun arg wd h => decodeCommand_error_of_not_mem (hill arg h) wd,
    fun arg wd s h => coreTurn_illegal_idle (hill arg h),
    fun i v s hb hi => ⟨_, exec_wrb_idle hb ((offsetLegal_iff i).2 hi) v, ?_, fun a ha => ?_, ?_⟩⟩
  · exact (decodeCommand_add 0x0B arg wd).trans (decodeOffset_of_le h (fun a => .wrb a wd))
  · rw [bufByte_wrb, if_pos rfl]
    exact BitVec.toNat_setWidth 8 v
  · rw [bufByte_wrb, if_neg ha.symm]
  · exact endCommand_idle (s := writeBuf i.toNat (truncByte v) s) hb .ok

end Sys2Proof.Machine
end

section
/-! The four courses of one `RECV` on an idle core (42_framesync.md R161 to R165), each as its whole next state. Which course it takes depends
on the unread bytes alone (R167). -/

namespace Sys2Proof.Machine

/-- `RECV` consumed a byte that is not the marker and ended with `MISS` (42_framesync.md R162). -/
def recvMissed (s : State) : State :=
  { s with pkt := Packet.cleared, rc := .miss, pc := s.pc + 1, rxpos := s.rxpos + 1, rxcnt := 0 }

/-- `RECV` stored `part` and waits for more bytes (42_framesync.md R165). -/
def recvBlocked (part : List Byte) (s : State) : State :=
  { s with
    pkt := Packet.cleared, buf := Memory.writeSeq s.buf 0 part, busy := true, rxcnt := part.length, rxpos := s.rxpos + part.length }

/-- `RECV` stored `frame` and ended with its packet (42_framesync.md R161, R168). -/
def recvAccepted (frame : List Byte) (s : State) : State :=
  { s with
    pkt := deserialize frame, buf := Memory.writeSeq s.buf 0 frame, rc := .ok, pc := s.pc + 1, rxpos := s.rxpos + 22, rxcnt := 22 }

/-- `RECV` stored `frame` and ended with `CRC_FAIL` (42_framesync.md R163). -/
def recvRejected (frame : List Byte) (s : State) : State :=
  { s with
    pkt := Packet.cleared, buf := Memory.writeSeq s.buf 0 frame, rc := .crcFail, pc := s.pc + 1, rxpos := s.rxpos + 22, rxcnt := 22,
    out := s.out ++ [.diag .crcFail] }

/-- What one `RECV` makes of an idle state, by the bytes to read. -/
inductive RecvCourse : List Byte → (State → State) → Prop
  | missed {b : Byte} {rest : List Byte} (hb : b ≠ Config.sof) : RecvCourse (b :: rest) recvMissed
  | blocked {part : List Byte} (hlen : part.length < Config.packetSize) (hm : part = [] ∨ byteAt part 0 = Config.sof) :
      RecvCourse part (recvBlocked part)
  | accepted {frame rest : List Byte} (hacc : acceptable frame = true) : RecvCourse (frame ++ rest) (recvAccepted frame)
  | rejected {frame rest : List Byte} (hlen : frame.length = Config.packetSize) (h0 : byteAt frame 0 = Config.sof)
      (hacc : acceptable frame = false) : RecvCourse (frame ++ rest) (recvRejected frame)

/-- Whatever bytes are to read, `RECV` has a course on them. -/
theorem RecvCourse.exists (u : List Byte) : ∃ f, RecvCourse u f := by
  by_cases hm : u = [] ∨ byteAt u 0 = Config.sof
  · by_cases hlen : u.length < Config.packetSize
    · exact ⟨_, .blocked hlen hm⟩
    · have hframe : (u.take Config.packetSize).length = Config.packetSize := List.length_take_of_le (Nat.le_of_not_lt hlen)
      have h0 : byteAt (u.take Config.packetSize) 0 = Config.sof := by
        rcases hm with rfl | h0
        · exact absurd (by decide) hlen
        · simpa [byteAt, Config.packetSize] using h0
      rw [← List.take_append_drop Config.packetSize u]
      cases hacc : acceptable (u.take Config.packetSize) with
      | true => exact ⟨_, .accepted hacc⟩
      | false => exact ⟨_, .rejected hframe h0 hacc⟩
  · obtain ⟨hne, h0⟩ := not_or.1 hm
    obtain ⟨b, rest, rfl⟩ := List.exists_cons_of_ne_nil hne
    exact ⟨_, .missed h0⟩

theorem startsWithMarker_of_byteAt {l : List Byte} {s : State} (hm : l = [] ∨ byteAt l 0 = Config.sof) : StartsWithMarker s l := by
  intro _ b hb
  rcases hm with rfl | h0
  · cases hb
  · rw [← h0, byteAt, List.getD_eq_getElem?_getD, ← List.head?_eq_getElem?, hb]
    rfl

/-- Going on after `l` is stored is going on from before it was (42_framesync.md R169). -/
theorem recvContinue_recvStoreAll {s : State} {l more : List Byte} (hle : s.rxcnt + l.length ≤ Config.packetSize)
    (hu : s.unread = l ++ more) (hm : StartsWithMarker s l) : recvContinue (recvStoreAll l s) = recvContinue s := by
  have hmissing : Config.packetSize - s.rxcnt = l.length + (Config.packetSize - (s.rxcnt + l.length)) := by omega
  rw [recvContinue, recvContinue, hmissing, recvCollect_append _ hu hm]
  rfl

/-- With no byte to read and some missing, going on changes nothing. -/
theorem recvContinue_blocked {s : State} (hcnt : s.rxcnt < Config.packetSize) (hnext : rxNext s = none) : recvContinue s = s := by
  obtain ⟨n, hn⟩ := Nat.exists_eq_add_of_lt (Nat.sub_pos_of_lt hcnt)
  rw [recvContinue, hn, recvCollect_blocked hnext]

/-- With no byte missing, going on is the check. -/
theorem recvContinue_full {s : State} (hcnt : s.rxcnt = Config.packetSize) : recvContinue s = recvCheck s := by
  rw [recvContinue, hcnt, Nat.sub_self, recvCollect]

theorem recvBlocked_eq (part : List Byte) (s : State) : recvBlocked part s = recvStoreAll part (recvStart s) := by
  simp [recvBlocked, recvStoreAll, recvStart, setPkt, setBusy]

/-- The check of a stored, marked frame compares as `acceptable` does. -/
theorem recvCheck_recvStoreAll {s : State} {frame : List Byte} (h : s.rxcnt = 0) (hlen : frame.length = Config.packetSize)
    (h0 : byteAt frame 0 = Config.sof) :
    recvCheck (recvStoreAll frame s) =
      if acceptable frame = true then endOk (setPkt (deserialize frame) (recvStoreAll frame s))
      else raise .crcFail (emit (.diag .crcFail) (setPkt Packet.cleared (recvStoreAll frame s))) := by
  simp only [recvCheck, bufFrame_recvStoreAll h hlen, acceptable_iff_crc hlen h0]

/-- A marked frame at hand is stored from the start of a `RECV` on and checked. -/
theorem recvContinue_recvStart_frame {s : State} {frame rest : List Byte} (hu : s.unread = frame ++ rest)
    (hlen : frame.length = Config.packetSize) (h0 : byteAt frame 0 = Config.sof) :
    recvContinue (recvStart s) =
      if acceptable frame = true then endOk (setPkt (deserialize frame) (recvStoreAll frame (recvStart s)))
      else raise .crcFail (emit (.diag .crcFail) (setPkt Packet.cleared (recvStoreAll frame (recvStart s)))) := by
  have hcnt : (recvStart s).rxcnt + frame.length = Config.packetSize := by rw [recvStart_rxcnt, hlen, Nat.zero_add]
  have hm : StartsWithMarker (recvStart s) frame := startsWithMarker_of_byteAt (.inr h0)
  rw [← recvContinue_recvStoreAll (Nat.le_of_eq hcnt) hu hm, recvContinue_full hcnt, recvCheck_recvStoreAll rfl hlen h0]

/-- `RECV` on an idle core takes the course of its unread bytes. -/
theorem exec_recv_of_course {s : State} {u : List Byte} {f : State → State} (hb : s.busy = false) (hu : s.unread = u)
    (hf : RecvCourse u f) : exec .recv s = .next (f s) := by
  rw [exec_recv_idle hb]
  cases hf with
  | @missed b rest hne =>
    have hnext : rxNext (recvStart s) = some b := (rxNext_eq_head? s).trans (by rw [hu]; rfl)
    have hmiss : recvContinue (recvStart s) = raise .miss (rxConsume (recvStart s)) := recvCollect_miss hnext rfl hne
    rw [hmiss, recvMissed, hb]
    rfl
  | blocked hlen hm =>
    have hcnt : (recvStart s).rxcnt + u.length < Config.packetSize := by rwa [recvStart_rxcnt, Nat.zero_add]
    have hall : (recvStart s).unread = u ++ [] := hu.trans (List.append_nil u).symm
    rw [← recvContinue_recvStoreAll (s := recvStart s) (Nat.le_of_lt hcnt) hall (startsWithMarker_of_byteAt hm),
      recvContinue_blocked hcnt (rxNext_recvStoreAll_unread (s := recvStart s) hu), recvBlocked_eq]
  | @accepted frame rest hacc =>
    obtain ⟨hlen, h0, _⟩ := (acceptable_iff frame).1 hacc
    rw [recvContinue_recvStart_frame hu hlen h0, if_pos hacc]
    simp [endOk, endCommand, recvStoreAll, recvStart, setPkt, setBusy, recvAccepted, hlen, hb, Config.packetSize]
  | @rejected frame rest hlen h0 hacc =>
    rw [recvContinue_recvStart_frame hu hlen h0, if_neg (by simp [hacc])]
    simp [raise, emit, endCommand, recvStoreAll, recvStart, setPkt, setBusy, recvRejected, hlen, hb, Config.packetSize]

/-- A `RECV` that answers a next state was presented to an idle core and took its course. -/
theorem exec_recv_next {s t : State} (h : exec .recv s = .next t) :
    s.busy = false ∧ ∃ u f, s.unread = u ∧ RecvCourse u f ∧ t = f s := by
  have hb := exec_next_idle rfl h
  obtain ⟨f, hf⟩ := RecvCourse.exists s.unread
  rw [exec_recv_of_course hb rfl hf] at h
  cases h
  exact ⟨hb, _, f, rfl, hf, rfl⟩

/-- The state `t` has the buffer of `s` with `l` stored from offset 0. -/
structure Stores (l : List Byte) (s t : State) : Prop where
  buf : t.buf = Memory.writeSeq s.buf 0 l
  resetCount : t.resetCount = s.resetCount

theorem stores_recvBlocked (part : List Byte) (s : State) : Stores part s (recvBlocked part s) := ⟨rfl, rfl⟩

theorem stores_recvAccepted (frame : List Byte) (s : State) : Stores frame s (recvAccepted frame s) := ⟨rfl, rfl⟩

theorem stores_recvRejected (frame : List Byte) (s : State) : Stores frame s (recvRejected frame s) := ⟨rfl, rfl⟩

theorem Stores.bufByte_eq {s t : State} {l : List Byte} (h : Stores l s t) (a : Nat) :
    bufByte t a = if a < l.length then byteAt l a else bufByte s a := by
  rw [bufByte_of_buf_eq (s := recvStoreAll l (recvStart s)) h.buf h.resetCount, bufByte_recvStoreAll]
  simp [bufByte, unlistedByte]

theorem Stores.bufByte_within {s t : State} {l : List Byte} (h : Stores l s t) {k : Nat} (hk : k < l.length) :
    bufByte t k = byteAt l k := by
  rw [h.bufByte_eq, if_pos hk]

theorem Stores.bufByte_past {s t : State} {l : List Byte} (h : Stores l s t) {a : Nat} (ha : l.length ≤ a) :
    bufByte t a = bufByte s a := by
  rw [h.bufByte_eq, if_neg (Nat.not_lt_of_le ha)]

theorem Stores.bufFrame_eq {s t : State} {l : List Byte} (h : Stores l s t) (hlen : l.length = Config.packetSize) : bufFrame t = l :=
  (bufFrame_of_buf_eq (s := recvStoreAll l (recvStart s)) h.buf h.resetCount).trans (bufFrame_recvStoreAll rfl hlen)

end Sys2Proof.Machine
end

section
/-! O30 to O34, O36 to O38: what one `RECV` does on each outcome (42_framesync.md R161 to R169), read off its course. -/

namespace Sys2Proof.Machine

/-- Settles O30: the course of a byte that is not the marker. -/
theorem recvMiss : Obligations.RecvMiss := by
  intro s b hb hnext hne
  obtain ⟨rest, hu⟩ := List.head?_eq_some_iff.1 ((rxNext_eq_head? s).symm.trans hnext)
  exact ⟨_, exec_recv_of_course hb hu (.missed hne), rfl⟩

/-- Settles O31: the course of an acceptable frame; that the zero frame is one is computed. -/
theorem recvAcceptsFrame : Obligations.RecvAcceptsFrame := by
  refine ⟨fun wd => decodeCommand_of_encode (i := .recv) rfl rfl wd, fun s frame rest hb hu hacc => ?_, by decide +kernel, rfl⟩
  have hlen := ((acceptable_iff frame).1 hacc).1
  exact ⟨_, exec_recv_of_course hb hu (.accepted hacc), rfl, (stores_recvAccepted frame s).bufFrame_eq hlen, rfl,
    fun a ha => (stores_recvAccepted frame s).bufByte_past (hlen.trans_le ha)⟩

/-- Settles O32: the course of a marked frame that is not acceptable. -/
theorem recvRejectsFrame : Obligations.RecvRejectsFrame := by
  intro s frame rest hb hu hlen h0 hacc
  exact ⟨_, exec_recv_of_course hb hu (.rejected hlen h0 hacc), (stores_recvRejected frame s).bufFrame_eq hlen, rfl,
    fun a ha => (stores_recvRejected frame s).bufByte_past (hlen.trans_le ha)⟩

/-- A blocked `RECV` has read all there was. -/
theorem rxNext_recvBlocked {s : State} {part : List Byte} (hu : s.unread = part) : rxNext (recvBlocked part s) = none := by
  rw [recvBlocked_eq]
  exact rxNext_recvStoreAll_unread hu

/-- Settles O33: the course of too few bytes; going on without a further byte changes nothing, and a busy core refuses commands. -/
theorem recvBlocks : Obligations.RecvBlocks := by
  intro s part hb hu hlen hm
  have hst := stores_recvBlocked part s
  refine ⟨_, exec_recv_of_course hb hu (.blocked hlen hm), fun k hk => hst.bufByte_within hk, fun a ha => hst.bufByte_past ha, rfl, ?_,
    fun i hi => exec_busy rfl hi⟩
  rw [coreTurn_busy rfl, recvContinue_blocked hlen (rxNext_recvBlocked hu)]

/-- Only too few bytes leave a `RECV` in progress. -/
theorem RecvCourse.eq_recvBlocked {u : List Byte} {f : State → State} {s : State} (hb : s.busy = false) (hf : RecvCourse u f)
    (ht : (f s).busy = true) : f = recvBlocked u ∧ u.length < Config.packetSize ∧ (u = [] ∨ byteAt u 0 = Config.sof) := by
  cases hf with
  | blocked hlen hm => exact ⟨rfl, hlen, hm⟩
  | missed | accepted | rejected => exact absurd ht (ne_true_of_eq_false hb)

/-- Received bytes stand behind the unread ones. -/
theorem unread_append (s : State) (more : List Byte) :
    State.unread { s with rx := s.rx ++ more } = s.unread ++ more.drop (s.rxpos - s.rx.length) :=
  List.drop_append

/-- Settles O34: the blocked state is the start of a `RECV` with the part stored, and going on from there is going on from the start. -/
theorem interruptedRecvEqualsUninterrupted : Obligations.InterruptedRecvEqualsUninterrupted := by
  intro s t more h ht
  obtain ⟨hb, u, f, hu, hf, rfl⟩ := exec_recv_next h
  obtain ⟨rfl, hlen, hm⟩ := hf.eq_recvBlocked hb ht
  have hle : (recvStart s).rxcnt + u.length ≤ Config.packetSize := by rw [recvStart_rxcnt, Nat.zero_add]; exact hlen.le
  have hmore : State.unread { s with rx := s.rx ++ more } = u ++ more.drop (s.rxpos - s.rx.length) := hu ▸ unread_append s more
  calc coreTurn { recvBlocked u s with rx := s.rx ++ more }
      = .next (recvContinue { recvBlocked u s with rx := s.rx ++ more }) := coreTurn_busy rfl
    _ = .next (recvContinue (recvStoreAll u (recvStart { s with rx := s.rx ++ more }))) := by rw [recvBlocked_eq]; rfl
    _ = .next (recvContinue (recvStart { s with rx := s.rx ++ more })) :=
      congrArg _ (recvContinue_recvStoreAll (s := recvStart { s with rx := s.rx ++ more }) hle hmore (startsWithMarker_of_byteAt hm))
    _ = exec .recv { s with rx := s.rx ++ more } := (exec_recv_idle (s := { s with rx := s.rx ++ more }) hb).symm

/-- A timeout reads no byte. -/
theorem rxTimeoutTurn_rxpos (s : State) : (rxTimeoutTurn s).rxpos = s.rxpos := by
  rcases rxTimeoutTurn_cases s with ⟨_, _, _, h⟩ | ⟨_, h⟩ <;> rw [h]
  rfl

/-- Settles O36: a course reads the bytes it stores, or the one it misses at. -/
theorem recvBytesConsumed : Obligations.RecvBytesConsumed := by
  intro s t h
  obtain ⟨hb, u, f, _, hf, rfl⟩ := exec_recv_next h
  have hidle : s.busy ≠ true := ne_true_of_eq_false hb
  cases hf with
  | missed => exact ⟨fun _ => .inr ⟨rfl, rfl⟩, fun h => absurd h hidle⟩
  | blocked hlen => exact ⟨nofun, fun _ => ⟨rfl, hlen, rxTimeoutTurn_rxpos _⟩⟩
  | accepted => exact ⟨fun _ => .inl ⟨.inl rfl, rfl⟩, fun h => absurd h hidle⟩
  | rejected => exact ⟨fun _ => .inl ⟨.inr rfl, rfl⟩, fun h => absurd h hidle⟩

/-- Settles O37: each course writes only `PKT`, the stored bytes, the codes and counters, and with `CRC_FAIL` one event. -/
theorem recvFrame : Obligations.RecvFrame := by
  intro s t h
  obtain ⟨hb, u, f, _, hf, rfl⟩ := exec_recv_next h
  have hidle : s.busy ≠ true := ne_true_of_eq_false hb
  cases hf with
  | missed =>
    have hkept : ∀ a, bufByte (recvMissed s) a = bufByte s a := bufByte_of_buf_eq rfl rfl
    exact ⟨rfl, rfl, rfl, rfl, rfl, rfl, .inl rfl, fun h => absurd h hidle, fun _ _ => hkept, fun a _ => hkept a, .inl rfl⟩
  | blocked hlen =>
    exact ⟨rfl, rfl, rfl, rfl, rfl, rfl, .inl rfl, fun _ a ha => (stores_recvBlocked u s).bufByte_past ha, nofun,
      fun a ha => (stores_recvBlocked u s).bufByte_past (hlen.le.trans ha), .inl rfl⟩
  | @accepted frame _ hacc =>
    have hlen := ((acceptable_iff frame).1 hacc).1
    have hframe : bufFrame (recvAccepted frame s) = frame := (stores_recvAccepted frame s).bufFrame_eq hlen
    exact ⟨rfl, rfl, rfl, rfl, rfl, rfl, .inl rfl, fun h => absurd h hidle, nofun,
      fun a ha => (stores_recvAccepted frame s).bufByte_past (hlen.trans_le ha), .inr ⟨rfl, congrArg deserialize hframe.symm⟩⟩
  | rejected hlen =>
    exact ⟨rfl, rfl, rfl, rfl, rfl, rfl, .inr ⟨rfl, rfl⟩, fun h => absurd h hidle, nofun,
      fun a ha => (stores_recvRejected _ s).bufByte_past (hlen.trans_le ha), .inl rfl⟩

theorem Stores.bufByte_eq_bufByte {s s' t t' : State} {l : List Byte} (h : Stores l s t) (h' : Stores l s' t') {k : Nat}
    (hk : k < l.length) : bufByte t k = bufByte t' k :=
  (h.bufByte_within hk).trans (h'.bufByte_within hk).symm

/-- How many bytes a course reads is not of the state. -/
theorem RecvCourse.reads {u : List Byte} {f : State → State} (hf : RecvCourse u f) : ∃ n, ∀ s, (f s).rxpos = s.rxpos + n := by
  cases hf with
  | missed => exact ⟨1, fun _ => rfl⟩
  | blocked => exact ⟨u.length, fun _ => rfl⟩
  | accepted | rejected => exact ⟨22, fun _ => rfl⟩

/-- What a course emits is not of the state. -/
theorem RecvCourse.emits {u : List Byte} {f : State → State} (hf : RecvCourse u f) : ∃ l, ∀ s, (f s).out = s.out ++ l := by
  cases hf with
  | missed | blocked | accepted => exact ⟨[], fun s => (List.append_nil s.out).symm⟩
  | rejected => exact ⟨[.diag .crcFail], fun _ => rfl⟩

/-- Settles O38: the two take one course, and what a course reads, stores and emits is not of the state. -/
theorem recvDependsOnlyOnStream : Obligations.RecvDependsOnlyOnStream := by
  intro s s' hb hb' hu
  obtain ⟨f, hf⟩ := RecvCourse.exists s'.unread
  refine ⟨f s, f s', exec_recv_of_course hb hu hf, exec_recv_of_course hb' rfl hf, ?_⟩
  generalize s'.unread = u at hf
  have hread : (f s).rxpos - s.rxpos = (f s').rxpos - s'.rxpos := by
    obtain ⟨n, hn⟩ := hf.reads
    rw [hn, hn, Nat.add_sub_cancel_left, Nat.add_sub_cancel_left]
  have hout : (f s).out.drop s.out.length = (f s').out.drop s'.out.length := by
    obtain ⟨l, hl⟩ := hf.emits
    rw [hl, hl, List.drop_left, List.drop_left]
  have hidle : s.busy ≠ true := ne_true_of_eq_false hb
  have hbusy : s.busy = s'.busy := hb.trans hb'.symm
  cases hf with
  | missed => exact ⟨hbusy, rfl, fun _ => rfl, hread, hout, fun h => absurd h hidle, fun _ hne => absurd rfl hne⟩
  | blocked =>
    exact ⟨rfl, rfl, nofun, hread, hout,
      fun _ => ⟨rfl, fun k hk => (stores_recvBlocked u s).bufByte_eq_bufByte (stores_recvBlocked u s') hk⟩, nofun⟩
  | @accepted frame _ hacc =>
    have hlen := ((acceptable_iff frame).1 hacc).1
    exact ⟨hbusy, rfl, fun _ => rfl, hread, hout, fun h => absurd h hidle,
      fun _ _ k hk => (stores_recvAccepted frame s).bufByte_eq_bufByte (stores_recvAccepted frame s') (hk.trans_eq hlen.symm)⟩
  | @rejected frame _ hlen =>
    exact ⟨hbusy, rfl, fun _ => rfl, hread, hout, fun h => absurd h hidle,
      fun _ _ k hk => (stores_recvRejected frame s).bufByte_eq_bufByte (stores_recvRejected frame s') (hk.trans_eq hlen.symm)⟩

end Sys2Proof.Machine
end

section
/-! O35: the timeout of a blocked `RECV` (42_framesync.md R164, 20_memory.md R56). -/

namespace Sys2Proof.Machine

/-- The transport ends a blocked `RECV` in mode `timeout`. -/
theorem rxTimeoutTurn_blocked {s : State} (hb : s.busy = true) (hnext : rxNext s = none) (hmode : s.rxMode = .timeout) :
    rxTimeoutTurn s = raise .timeout s := by
  rcases rxTimeoutTurn_cases s with ⟨_, _, _, h⟩ | ⟨h, _⟩
  · exact h
  · simp [hb, hnext, hmode] at h

/-- It cannot with no `RECV` in progress, with a byte to read, or in mode `block`. -/
theorem rxTimeoutTurn_empty {s : State} (h : s.busy = false ∨ rxNext s ≠ none ∨ s.rxMode = .block) : rxTimeoutTurn s = s := by
  rcases rxTimeoutTurn_cases s with ⟨hb, hnext, hmode, _⟩ | ⟨_, h⟩
  · simp [hb, hnext, hmode] at h
  · exact h

/-- Settles O35: the two cases of a timeout turn; while a `RECV` is in progress the invariant has `PKT` cleared already. -/
theorem recvTimeout : Obligations.RecvTimeout := by
  intro s rest hs hinv
  rw [step_cons hs]
  refine ⟨fun hb hnext hmode => ?_, fun h => ?_⟩
  · rw [← (hinv.receiving hb).cleared]
    exact congrArg _ (rxTimeoutTurn_blocked (s := { s with schedule := rest }) hb hnext hmode)
  · exact congrArg _ (rxTimeoutTurn_empty (s := { s with schedule := rest }) h)

end Sys2Proof.Machine
end

section
/-! O39: noise costs one `RECV` per byte and does not hide the frame behind it (42_framesync.md R170). -/

namespace Sys2Proof.Machine

/-- `RECV` on an idle core, as the state it leaves. -/
theorem afterExec_recv {s : State} {u : List Byte} {f : State → State} (hb : s.busy = false) (hu : s.unread = u) (hf : RecvCourse u f) :
    afterExec .recv s = f s := by
  rw [afterExec, exec_recv_of_course hb hu hf]

theorem unread_recvMissed (s : State) : (recvMissed s).unread = s.unread.tail := unread_rxConsume s

/-- A state that has read `l` more of the received bytes has what followed `l` to read. -/
theorem unread_of_read {s t : State} {l rest : List Byte} (hu : s.unread = l ++ rest) (hrx : t.rx = s.rx)
    (hpos : t.rxpos = s.rxpos + l.length) : t.unread = rest := by
  rw [← List.drop_left (l₁ := l) (l₂ := rest), ← hu, State.unread, State.unread, List.drop_drop, hrx, hpos]

/-- Settles O39, by induction on the noise: its first byte is missed, which leaves the rest of it to read. -/
theorem framingResync : Obligations.FramingResync := by
  intro s noise frame rest hb hnoise hacc hu
  induction noise generalizing s with
  | nil =>
    have hend : repeatExec .recv 1 s = recvAccepted frame s := afterExec_recv hb hu (.accepted hacc)
    have hlen := ((acceptable_iff frame).1 hacc).1
    refine ⟨nofun, ?_⟩
    rw [List.length_nil, hend]
    exact ⟨rfl, rfl, unread_of_read hu rfl (congrArg (s.rxpos + ·) hlen.symm), rfl⟩
  | cons b noise ih =>
    have hfirst : afterExec .recv s = recvMissed s := afterExec_recv hb hu (.missed (hnoise b List.mem_cons_self))
    have hrest : (recvMissed s).unread = noise ++ (frame ++ rest) := by rw [unread_recvMissed, hu]; rfl
    obtain ⟨hmiss, hframe⟩ := ih (recvMissed s) hb (fun x hx => hnoise x (List.mem_cons_of_mem b hx)) hrest
    simp only [repeatExec, List.length_cons, hfirst]
    refine ⟨fun k hk => ?_, hframe⟩
    cases k with
    | zero => exact ⟨rfl, rfl⟩
    | succ k => exact hmiss k (Nat.lt_of_succ_lt_succ hk)

end Sys2Proof.Machine
end

section
/-! O40: damaged frames (42_framesync.md R171). -/

namespace Sys2Proof.Machine

/-- The first `n` bytes of a sequence with a flipped bit are its first `n` bytes with that bit flipped. -/
theorem take_flipBit (n j : Nat) (l : List Byte) : (flipBit j l).take n = flipBit j (l.take n) := by
  induction l generalizing n j with
  | nil => simp [flipBit]
  | cons b rest ih =>
    cases n with
    | zero => simp [flipBit]
    | succ n => by_cases hj : j < 8 <;> simp [flipBit, hj, ih]

/-- A flip within the first `n` bytes leaves the bytes behind them alone. -/
theorem drop_flipBit {n j : Nat} (h : j < 8 * n) (l : List Byte) : (flipBit j l).drop n = l.drop n := by
  induction l generalizing n j with
  | nil => rfl
  | cons b rest ih =>
    obtain ⟨n, rfl⟩ : ∃ m, n = m + 1 := Nat.exists_eq_succ_of_ne_zero (by omega)
    by_cases hj : j < 8
    · simp [flipBit, hj]
    · simpa [flipBit, hj] using ih (by omega)

theorem byteAt_flipBit_zero {j : Nat} (h : 8 ≤ j) (l : List Byte) : byteAt (flipBit j l) 0 = byteAt l 0 := by
  cases l with
  | nil => rfl
  | cons b rest => rw [flipBit, if_neg (Nat.not_lt_of_le h)]; rfl

/-- A frame that kept its integrity field while the CRC of its content changed is not acceptable. -/
theorem not_acceptable_of_crc {frame damaged : List Byte} (hacc : acceptable frame = true)
    (hdrop : damaged.drop Config.contentLen = frame.drop Config.contentLen) (hcrc : crc24 (contentOf damaged) ≠ crc24 (contentOf frame)) :
    acceptable damaged = false := by
  rw [← Bool.not_eq_true]
  intro h
  obtain ⟨_, _, hframe⟩ := (acceptable_iff frame).1 hacc
  obtain ⟨_, _, hdamaged⟩ := (acceptable_iff damaged).1 h
  exact hcrc (bytes3_injective (hdamaged.symm.trans (hdrop.trans hframe)))

/-- A frame that kept its content while its integrity field changed is not acceptable. -/
theorem not_acceptable_of_content {frame damaged : List Byte} (hacc : acceptable frame = true)
    (htake : contentOf damaged = contentOf frame) (hne : damaged ≠ frame) : acceptable damaged = false := by
  rw [← Bool.not_eq_true]
  intro h
  obtain ⟨_, _, hframe⟩ := (acceptable_iff frame).1 hacc
  obtain ⟨_, _, hdamaged⟩ := (acceptable_iff damaged).1 h
  have hdrop : damaged.drop Config.contentLen = frame.drop Config.contentLen := by rw [hdamaged, hframe, htake]
  apply hne
  rw [← List.take_append_drop Config.contentLen damaged, hdrop]
  exact (congrArg (· ++ _) htake).trans (List.take_append_drop Config.contentLen frame)

/-- Each of the three kinds of damage keeps the length and the marker and leaves a frame that is not acceptable. -/
theorem damaged_not_acceptable {frame damaged : List Byte} (hacc : acceptable frame = true)
    (hdamage : (∃ j, 8 ≤ j ∧ j < 152 ∧ damaged = flipBit j frame)
      ∨ (∃ j k, 8 ≤ j ∧ j < 152 ∧ 8 ≤ k ∧ k < 152 ∧ j ≠ k ∧ damaged = flipBit j (flipBit k frame))
      ∨ (damaged.length = 22 ∧ damaged.take 19 = frame.take 19 ∧ damaged ≠ frame)) :
    damaged.length = Config.packetSize ∧ byteAt damaged 0 = Config.sof ∧ acceptable damaged = false := by
  obtain ⟨hlen, h0, _⟩ := (acceptable_iff frame).1 hacc
  have hcontent : (contentOf frame).length = 19 := List.length_take_of_le (hlen ▸ by decide)
  rcases hdamage with ⟨j, hj8, hj, rfl⟩ | ⟨j, k, hj8, hj, hk8, hk, hne, rfl⟩ | ⟨hlen', htake, hne⟩
  · have hcrc := (crcDetectsOneAndTwoFlips _ hcontent j j hj hj).1
    refine ⟨by rwa [flipBit_length], by rwa [byteAt_flipBit_zero hj8], not_acceptable_of_crc hacc (drop_flipBit hj _) ?_⟩
    rwa [contentOf, take_flipBit]
  · have hcrc := (crcDetectsOneAndTwoFlips _ hcontent j k hj hk).2 hne
    refine ⟨by rwa [flipBit_length, flipBit_length], by rwa [byteAt_flipBit_zero hj8, byteAt_flipBit_zero hk8],
      not_acceptable_of_crc hacc ((drop_flipBit hj _).trans (drop_flipBit hk _)) ?_⟩
    rwa [contentOf, take_flipBit, take_flipBit]
  · have h0' : byteAt damaged 0 = byteAt frame 0 := by
      simpa [byteAt] using congrArg (byteAt · 0) htake
    exact ⟨hlen', h0'.trans h0, not_acceptable_of_content hacc htake hne⟩

/-- Settles O40: the damaged frame takes the course of a frame that is not acceptable. -/
theorem corruptionRejected : Obligations.CorruptionRejected := by
  intro s frame damaged rest hb hacc hu hdamage
  obtain ⟨hlen, h0, hbad⟩ := damaged_not_acceptable hacc hdamage
  exact ⟨_, exec_recv_of_course hb hu (.rejected hlen h0 hbad), rfl, rfl, unread_of_read hu rfl (congrArg (s.rxpos + ·) hlen.symm)⟩

end Sys2Proof.Machine
end

section
/-! O27, O29: the command `SEND` (43_sender.md R181, R185). -/

namespace Sys2Proof.Machine

/-- `SEND` emits the serialized packet as one block, then a flush. -/
@[simp] theorem sendFrame_out (s : State) : (sendFrame s).out = s.out ++ [.txWrite (serialize s.pkt), .txFlush] := by
  rw [sendFrame, transmitBuf_serializeToBuf]
  simp

/-- `SEND` leaves the serialized packet in `BUF`. -/
@[simp] theorem bufFrame_sendFrame (s : State) : bufFrame (sendFrame s) = serialize s.pkt :=
  bufFrame_of_buf_serialize (serializeToBuf_buf s) rfl

/-- `SEND` leaves every byte past the 22 as it was. -/
theorem bufByte_sendFrame (s : State) {a : Nat} (ha : 22 ≤ a) : bufByte (sendFrame s) a = bufByte s a :=
  (bufByte_of_buf_writeAll (serializeToBuf_buf s) rfl a).trans (if_neg (Nat.not_lt_of_le ha))

/-- `SEND` on an idle core writes only `BUF`, the emitted events, `RES`, `RC` and the program's index. -/
theorem sendFrame_idle {s : State} (hb : s.busy = false) :
    sendFrame s = { s with buf := (sendFrame s).buf, out := (sendFrame s).out, res := frameSizeWord, rc := .ok, pc := s.pc + 1 } :=
  endCommand_idle (s := setRes frameSizeWord (flushTransport (transmitBuf (serializeToBuf s)))) hb .ok

/-- Settles O27: the state `SEND` leaves, by what it emits, what it leaves in `BUF` and what it writes at all. -/
theorem sendResult : Obligations.SendResult := by
  refine ⟨fun wd => decodeCommand_of_encode (i := .send) rfl rfl wd,
    fun s hb => ⟨_, exec_send_idle hb, bufFrame_sendFrame s, serialize_length s.pkt, ?_, fun a ha => bufByte_sendFrame s ha⟩⟩
  rw [← sendFrame_out]
  exact sendFrame_idle hb

/-- Settles O29: the first `SEND` leaves the core idle and the packet in `PKT`, so the second serializes the same packet. -/
theorem sendAgainSendsTheSame : Obligations.SendAgainSendsTheSame := by
  intro s hb
  have hpkt : (sendFrame s).pkt = s.pkt := rfl
  refine ⟨_, _, exec_send_idle hb, exec_send_idle rfl, sendFrame_out s, ?_, rfl, ?_⟩
  · rw [sendFrame_out (sendFrame s), hpkt]
  · rw [bufFrame_sendFrame (sendFrame s), bufFrame_sendFrame s, hpkt]

end Sys2Proof.Machine
end

section
/-! O28: nothing but acceptable frames is handed to the transport (43_sender.md R182). -/

namespace Sys2Proof.Machine

/-- `Serialize` "does not read `x[6]`" (41_marshal.md R132). -/
theorem serialize_withCrc (p : Packet) (c : Crc) : serialize { p with crc := c } = serialize p := rfl

/-- A turn of the core emits nothing, a `Diag`, or a `SEND`'s block, which is a serialized packet, and its flush. -/
theorem sentAcceptable_coreTurn {s t : State} (h : s.SentAcceptable) (ht : coreTurn s = .next t) : t.SentAcceptable := by
  intro bytes hmem
  rcases (progress_coreTurn ht).out with ho | ho | ho <;> rw [ho] at hmem
  · exact h bytes hmem
  · exact h bytes (by simpa using hmem)
  · have hnew : OutEvent.txWrite bytes ∈ s.out ∨ bytes = serialize s.pkt := by simpa using hmem
    rcases hnew with hold | rfl
    · exact h bytes hold
    · exact acceptable_serialize s.pkt

theorem sentAcceptable_rxTimeoutTurn {s : State} (h : s.SentAcceptable) : (rxTimeoutTurn s).SentAcceptable := by
  rcases rxTimeoutTurn_cases s with ⟨_, _, _, ht⟩ | ⟨_, ht⟩ <;> rw [ht] <;> exact h

/-- The events a struck command had emitted are ones its whole turn would emit. -/
theorem sentAcceptable_resetDuringTurn {s : State} (h : s.SentAcceptable) (n : Nat) : (resetDuringTurn n s).SentAcceptable := by
  intro bytes hmem
  rcases List.mem_append.1 hmem with hold | hstruck
  · exact h bytes hold
  · exact sentAcceptable_coreTurn h (coreTurn_total s) bytes (List.mem_of_mem_drop (List.mem_of_mem_take hstruck))

/-- Whoever moves, only acceptable frames have been sent. -/
theorem sentAcceptable_takeTurn {turn : Turn} {s t : State} (h : s.SentAcceptable) (ht : takeTurn turn s = .next t) :
    t.SentAcceptable := by
  cases turn with
  | core => exact sentAcceptable_coreTurn h ht
  | dispatch => rw [takeTurn, dispatchTurn_eq] at ht; cases ht; exact h
  | rxByte b => cases ht; exact h
  | rxTimeout => cases ht; exact sentAcceptable_rxTimeoutTurn h
  | reset => cases ht; exact h
  | resetDuring n => cases ht; exact sentAcceptable_resetDuringTurn h n

theorem sentAcceptable_step {s t : State} (h : s.SentAcceptable) (hstep : step s = .next t) : t.SentAcceptable := by
  cases hs : s.schedule with
  | nil => rw [step_nil hs] at hstep; exact sentAcceptable_coreTurn h hstep
  | cons turn rest =>
    rw [step_cons hs] at hstep
    exact sentAcceptable_takeTurn (s := { s with schedule := rest }) h hstep

/-- Settles O28: both `SEND`s serialize the same six fields; and every turn keeps what has been sent acceptable. -/
theorem onlyAcceptableFramesAreSent : Obligations.OnlyAcceptableFramesAreSent := by
  refine ⟨fun s c m hb => ⟨_, _, exec_send_idle hb, exec_send_idle hb, ?_, ?_⟩, fun _ _ => sentAcceptable_step⟩
  · rw [sendFrame_out, sendFrame_out, serialize_withCrc]
  · rw [bufFrame_sendFrame, bufFrame_sendFrame, serialize_withCrc]

end Sys2Proof.Machine
end

section
/-! O54, O55, O56: the result codes (60_exceptions.md R190 to R194), and a byte that arrives (R196). -/

namespace Sys2Proof.Machine

/-- No code is above 4 (60_exceptions.md R190). -/
theorem rcBits_toNat_le (c : ResultCode) : (rcBits c).toNat ≤ 4 := by
  cases c <;> decide

/-- What an instruction `i` computes once it is accepted ends with `OK`, or with `ILLEGAL` where the operand makes the word illegal
(60_exceptions.md R193), and does not look at the code it replaces (R194). -/
structure EndsWithOwnCode (i : Instr) (run : State → State) : Prop where
  rc : ∀ s, (run s).rc = if i.wf = true then .ok else .illegal
  withRc : ∀ s code, run { s with rc := code } = run s

/-- A command with a buffer offset ends with `OK` at a legal offset and with `ILLEGAL` at any other (30_encoding.md R93). -/
theorem withOffset_rc {a : BitVec 5} {run : Nat → State → State} {s : State} (hrun : (run a.toNat s).rc = .ok) :
    (withOffset a run s).rc = if offsetLegal a = true then .ok else .illegal := by
  cases ha : offsetLegal a with
  | true => rw [withOffset_legal ha, hrun]; rfl
  | false => rw [withOffset_illegal ha]; rfl

/-- Every command but `RECV` is accepted through the command interface and ends with a code of its own. -/
theorem exec_eq_command {i : Instr} (hi : isCommand i = true) (hne : i ≠ .recv) :
    ∃ run, (∀ s, exec i s = command s run) ∧ EndsWithOwnCode i run := by
  cases i with
  | clr | ser | des | crc | val | send | getf | setf => exact ⟨_, fun _ => rfl, fun _ => rfl, fun _ _ => rfl⟩
  | rdb | wrb => exact ⟨_, fun _ => rfl, fun _ => withOffset_rc rfl, fun _ _ => rfl⟩
  | recv => exact absurd rfl hne
  | opCode1000 | opCode1001 | opCode1002 | opCode1003 | opCode1004 => cases hi

/-- A course of `RECV` that ends has one of three codes; the blocked one has not ended. -/
theorem RecvCourse.rc_of_ended {u : List Byte} {f : State → State} {s : State} (hf : RecvCourse u f) (ht : (f s).busy = false) :
    (f s).rc = .ok ∨ (f s).rc = .miss ∨ (f s).rc = .crcFail := by
  cases hf with
  | missed => exact .inr (.inl rfl)
  | blocked => cases ht
  | accepted => exact .inl rfl
  | rejected => exact .inr (.inr rfl)

/-- A course of `RECV` that ends does not look at the code it replaces. -/
theorem RecvCourse.withRc_of_ended {u : List Byte} {f : State → State} {s : State} (hf : RecvCourse u f) (ht : (f s).busy = false)
    (code : ResultCode) : f { s with rc := code } = f s := by
  cases hf with
  | missed | accepted | rejected => rfl
  | blocked => cases ht

/-- Settles O54: `RECV` ends as its course does, every other command by whether its operand is legal. -/
theorem resultCodes : Obligations.ResultCodes := by
  refine ⟨rfl, rfl, rfl, rfl, rfl, rcBits_toNat_le, fun i s t hi he ht => ?_⟩
  by_cases hrecv : i = .recv
  · subst hrecv
    obtain ⟨_, u, f, _, hf, rfl⟩ := exec_recv_next he
    exact .inr (.inr ⟨rfl, hf.rc_of_ended ht⟩)
  · obtain ⟨run, hrun, hends⟩ := exec_eq_command hi hrecv
    obtain ⟨_, rfl⟩ := command_next ((hrun s).symm.trans he)
    have hrc := hends.rc s
    cases hwf : i.wf with
    | true => exact .inr (.inl ⟨rfl, hrecv, hrc.trans (if_pos hwf)⟩)
    | false => exact .inl ⟨rfl, hrc.trans (if_neg (ne_true_of_eq_false hwf))⟩

/-- Settles O55: a command that ends replaces the code without looking at it, `RECV` on each course that ends. -/
theorem noCodeIsSticky : Obligations.NoCodeIsSticky := by
  intro i s t code he ht hi
  by_cases hrecv : i = .recv
  · subst hrecv
    obtain ⟨hb, u, f, hu, hf, rfl⟩ := exec_recv_next he
    rw [exec_recv_of_course (s := { s with rc := code }) hb hu hf, hf.withRc_of_ended ht]
  · obtain ⟨run, hrun, hends⟩ := exec_eq_command hi hrecv
    obtain ⟨hb, rfl⟩ := command_next ((hrun s).symm.trans he)
    rw [hrun, command_idle (s := { s with rc := code }) hb, hends.withRc]

/-- Settles O56: the turn is taken off the schedule, and delivering the byte writes only `rx`. -/
theorem arrivalDisturbsNothing : Obligations.ArrivalDisturbsNothing :=
  fun _ _ _ h => step_cons h

end Sys2Proof.Machine
end

section
/-! O46, O50, O51: every agent makes its move from every state, and what a reset leaves, between commands and in the middle of one
(70_reset_and_hazards.md R220, R221, R236). -/

namespace Sys2Proof.Machine

/-- Whoever's turn it is makes a move from every state. -/
theorem takeTurn_total (turn : Turn) (s : State) : ∃ t, takeTurn turn s = .next t := by
  cases turn with
  | core => exact ⟨_, coreTurn_total s⟩
  | dispatch => exact ⟨_, dispatchTurn_eq s⟩
  | rxByte _ | rxTimeout | reset | resetDuring _ => exact ⟨_, rfl⟩

/-- Settles O46: a step is the move of the agent on turn. -/
theorem everyStepMoves : Obligations.EveryStepMoves :=
  fun s => takeTurn_total (nextTurn s).1 (nextTurn s).2

/-- Settles O50: the turn is taken off the schedule, and the reset writes only what lies inside the core. -/
theorem resetTurnResult : Obligations.ResetTurnResult :=
  fun _ _ hs => step_cons hs

/-- A reset that strikes a command whose whole turn would read `reads` bytes and then emit `events`: of these the first `n` have
happened. -/
theorem resetDuringTurn_eq {s : State} {reads : Nat} {events : List OutEvent} (hread : (afterCoreTurn s).rxpos = s.rxpos + reads)
    (hemit : (afterCoreTurn s).out = s.out ++ events) (n : Nat) :
    resetDuringTurn n s = resetCore { s with rxpos := s.rxpos + min n reads, out := s.out ++ events.take (n - reads) } := by
  simp only [resetDuringTurn, hread, hemit, Nat.add_sub_cancel_left, List.drop_left]

/-- The whole turn of an idle core runs the instruction its presented command decodes to. -/
theorem afterCoreTurn_of_decode {s t : State} {c : Command} {i : Instr} (hb : s.busy = false) (hp : presented s = some c)
    (hd : decode (.command c) = .ok i) (he : exec i s = .next t) : afterCoreTurn s = t := by
  rw [afterCoreTurn, coreTurn_of_decode hb hp hd, he]

/-- A `SEND` struck by reset has emitted the first `n` of its two events. -/
theorem resetDuringTurn_send {s : State} {c : Command} (hb : s.busy = false) (hp : presented s = some c)
    (hd : decode (.command c) = .ok .send) (n : Nat) :
    resetDuringTurn n s = resetCore { s with out := s.out ++ [.txWrite (serialize s.pkt), .txFlush].take n } := by
  have hturn : afterCoreTurn s = sendFrame s := afterCoreTurn_of_decode hb hp hd (exec_send_idle hb)
  have hread : (afterCoreTurn s).rxpos = s.rxpos + 0 := by rw [hturn]; rfl
  rw [resetDuringTurn_eq hread (by rw [hturn, sendFrame_out]), Nat.min_zero, Nat.add_zero, Nat.sub_zero]

/-- A marked frame at hand puts `RECV` on a course that reads all its 22 bytes. -/
theorem RecvCourse.exists_of_frame {frame : List Byte} (more : List Byte) (hlen : frame.length = Config.packetSize)
    (h0 : byteAt frame 0 = Config.sof) : ∃ f, RecvCourse (frame ++ more) f ∧ ∀ s, (f s).rxpos = s.rxpos + Config.packetSize := by
  cases hacc : acceptable frame with
  | true => exact ⟨_, .accepted hacc, fun _ => rfl⟩
  | false => exact ⟨_, .rejected hlen h0 hacc, fun _ => rfl⟩

/-- A `RECV` with a whole frame at hand, struck by reset no later than its last read, has read `n` bytes and emitted nothing: the
`Diag` of a rejected frame comes after the reads. -/
theorem resetDuringTurn_recv {s : State} {c : Command} {frame more : List Byte} {n : Nat} (hb : s.busy = false)
    (hp : presented s = some c) (hd : decode (.command c) = .ok .recv) (hu : s.unread = frame ++ more)
    (hlen : frame.length = Config.packetSize) (h0 : byteAt frame 0 = Config.sof) (hn : n ≤ Config.packetSize) :
    resetDuringTurn n s = resetCore { s with rxpos := s.rxpos + n } := by
  obtain ⟨f, hf, hread⟩ := RecvCourse.exists_of_frame more hlen h0
  obtain ⟨events, hemit⟩ := hf.emits
  have hturn : afterCoreTurn s = f s := afterCoreTurn_of_decode hb hp hd (exec_recv_of_course hb hu hf)
  rw [resetDuringTurn_eq (by rw [hturn, hread]) (by rw [hturn, hemit]), Nat.min_eq_left hn, Nat.sub_eq_zero_of_le hn,
    List.take_zero, List.append_nil]

/-- Settles O51: the first `n` actions of the struck command have happened, and the core is at its reset values. -/
theorem resetInMidCommand : Obligations.ResetInMidCommand := by
  refine ⟨fun s t c rest hb hp hd => ?_, fun s t c n frame more rest hb hp hd hs hu hlen h0 hn hstep => ?_⟩
  · have hstruck (n : Nat) (hs : s.schedule = .resetDuring n :: rest) (hstep : step s = .next t) :
        t.out = s.out ++ [.txWrite (serialize s.pkt), .txFlush].take n := by
      rw [step_cons hs, takeTurn, resetDuringTurn_send (s := { s with schedule := rest }) hb hp hd] at hstep
      cases hstep
      rfl
    exact ⟨fun hs hstep => (hstruck 0 hs hstep).trans (List.append_nil _), hstruck 1, hstruck 2⟩
  · rw [step_cons hs, takeTurn, resetDuringTurn_recv (s := { s with schedule := rest }) hb hp hd hu hlen h0 hn] at hstep
    cases hstep
    exact ⟨List.drop_drop.symm, rfl, rfl, rfl, rfl, rfl⟩

end Sys2Proof.Machine
end
